-- ==== Sys2Proof/Word.lean ====
section
/-! DEFINITION. The word types of the BPQ core (spec/00_scope.md R7: a byte is 8 bits, a word is 32 bits). -/

namespace Sys2Proof

/-- A word of the command and response ports, and an address (R7, R50, R70). -/
abbrev Word := BitVec 32

/-- A byte of the data memory; also a sample, a code and an immediate (R7, R11, R50, R72). -/
abbrev Byte := BitVec 8

end Sys2Proof
end

