-- ==== Sys2Proof/Config.lean ====
section
/-! DEFINITION. The parameters that the spec leaves open (spec/00_scope.md R6). Each is an opaque constant, so nothing
can be proved of its value. The machine carries them in its state, where a reset puts them, so that a statement about
every state is a statement about every value of them. -/

namespace Sys2Proof

/-- How the inverse quantizer is built: R6, R23, R163 (`INV_IMPL`). -/
inductive InvImpl where
  /-- a lookup table of 2^N entries -/
  | lut
  /-- a multiplier by SCALE -/
  | scale
  deriving DecidableEq, Repr, Inhabited

/-- MEM_SIZE less one: any number below 2^32 (R6; log 1). -/
opaque Config.memSizeLessOne : BitVec 32

/-- `MEM_SIZE`, a natural with 1 <= MEM_SIZE <= 2^32 (R6, R50; log 1). -/
def Config.memSize : Nat := Config.memSizeLessOne.toNat + 1

/-- `MEM_INIT`: the byte each address holds at power-on, any byte per address (R6, R220; log 2). -/
opaque Config.memInit : Word → Byte

/-- `INV_IMPL` of this implementation (R6; log 3). -/
opaque Config.invImpl : InvImpl

end Sys2Proof
end

