-- ==== Sys2Proof/Syntax.lean ====
section
/-! DEFINITION. The commands of BPQ-1, one constructor per row of spec/opcode_table.json (spec/30_encoding.md R74), and
the lines of the assembler (R79, R80). An operand of a command carries its width in its type, so a command is well
formed by construction; what a source line may get wrong is checked in WellFormed.lean. -/

namespace Sys2Proof

/-- One command of R74 with its immediate (R72) and its operand words (R73). -/
inductive Instr where
  /-- R100 -/
  | nop
  /-- R101: `imm` is the requested width, any value from 0 to 255 -/
  | setw (imm : Byte)
  /-- R102 -/
  | clrerr
  /-- R103 -/
  | stat
  /-- R104 -/
  | rdpp
  /-- R105 -/
  | rdup
  /-- R106 -/
  | rdur
  /-- R160: `imm` is a sample -/
  | qfwd (imm : Byte)
  /-- R161: `imm` is a code -/
  | qinv (imm : Byte)
  /-- R120 -/
  | pbind (dst : Word)
  /-- R121: `imm` is a code, of which the low N bits count -/
  | pack (imm : Byte)
  /-- R122 -/
  | pcommit
  /-- R140 -/
  | ubind (src len : Word)
  /-- R141 -/
  | unpack
  /-- R142 -/
  | ufin
  /-- R182: `L` samples at `src`, packed to `dst` -/
  | encode (src dst L : Word)
  /-- R183: `len` packed bytes at `src`, `count` samples to `dst` -/
  | decode (src len dst count : Word)
  /-- R184: `len` packed bytes at `src`, every sample to `dst` -/
  | decodeRaw (src len dst : Word)
  deriving DecidableEq, Repr

/-- The names an assembler line may begin with: the 18 mnemonics of R74 and the two pseudo-commands of R80. -/
inductive Mnemonic where
  | nop | setw | clrerr | stat | rdpp | rdup | rdur | qfwd | qinv | pbind | pack | pcommit
  | ubind | unpack | ufin | encode | decode | decodeRaw
  /-- R80: SETW, then ENCODE -/
  | encw
  /-- R80: SETW, then DECODE -/
  | decw
  deriving DecidableEq, Repr

/-- Does the mnemonic take an immediate, written first (R74, R79, R80)? -/
def Mnemonic.hasImm : Mnemonic → Bool
  | .setw | .qfwd | .qinv | .pack | .encw | .decw => true
  | .nop | .clrerr | .stat | .rdpp | .rdup | .rdur | .pbind | .pcommit | .ubind | .unpack | .ufin
  | .encode | .decode | .decodeRaw => false

/-- How many operand words the mnemonic takes after the immediate (R74, R80). -/
def Mnemonic.operandWords : Mnemonic → Nat
  | .pbind => 1
  | .ubind => 2
  | .encode | .decodeRaw | .encw => 3
  | .decode | .decw => 4
  | .nop | .setw | .clrerr | .stat | .rdpp | .rdup | .rdur | .qfwd | .qinv | .pack | .pcommit
  | .unpack | .ufin => 0

/-- One line of assembler: a mnemonic and the numbers after it, in the order they are written (R79). -/
structure AsmLine where
  mnemonic : Mnemonic
  args : List Nat
  deriving DecidableEq, Repr

end Sys2Proof
end

