-- ==== Sys2Proof/WellFormed.lean ====
section
/-! DEFINITION. What an assembler line must satisfy (spec/30_encoding.md R79): the number of operands of its mnemonic,
an immediate of at most 255, operands of at most 2^32 - 1. A command (`Instr`) needs no check: its operands have the
widths of R72 and R73 by their types. -/

namespace Sys2Proof

/-- Why an assembler refuses a line. -/
inductive AsmError where
  /-- no mnemonic of R74 or R80 -/
  | unknownMnemonic
  /-- an operand is no decimal or 0x hexadecimal number (R79) -/
  | badNumber
  /-- not the operands the mnemonic takes (R74, R79) -/
  | wrongOperandCount
  /-- an immediate above 255 (R79) -/
  | immediateTooLarge
  /-- an operand above 2^32 - 1 (R79) -/
  | operandTooLarge
  deriving DecidableEq, Repr

/-- The immediate of a line, where its mnemonic takes one: the first number (R79). -/
def AsmLine.imm (l : AsmLine) : Nat := if l.mnemonic.hasImm then l.args.headD 0 else 0

/-- The operand words of a line: the numbers after the immediate (R79). -/
def AsmLine.operands (l : AsmLine) : List Nat := if l.mnemonic.hasImm then l.args.tail else l.args

/-- The number of operands is that of the mnemonic (R74). -/
def AsmLine.countOk (l : AsmLine) : Bool :=
  l.args.length == l.mnemonic.operandWords + (if l.mnemonic.hasImm then 1 else 0)

/-- "An assembler refuses an immediate above 255" (R79). -/
def AsmLine.immOk (l : AsmLine) : Bool := decide (l.imm ≤ 255)

/-- "... or an operand above 2^32 - 1" (R79). -/
def AsmLine.operandsOk (l : AsmLine) : Bool := l.operands.all fun v => decide (v ≤ 2 ^ 32 - 1)

/-- A line the assembler accepts (R79). -/
def AsmLine.wellFormed (l : AsmLine) : Bool := l.countOk && l.immOk && l.operandsOk

/-- The line a command is written as (R79): the immediate first where there is one, then the operand words in the order
of R74. -/
def Instr.line : Instr → AsmLine
  | .nop => ⟨.nop, []⟩
  | .setw imm => ⟨.setw, [imm.toNat]⟩
  | .clrerr => ⟨.clrerr, []⟩
  | .stat => ⟨.stat, []⟩
  | .rdpp => ⟨.rdpp, []⟩
  | .rdup => ⟨.rdup, []⟩
  | .rdur => ⟨.rdur, []⟩
  | .qfwd imm => ⟨.qfwd, [imm.toNat]⟩
  | .qinv imm => ⟨.qinv, [imm.toNat]⟩
  | .pbind dst => ⟨.pbind, [dst.toNat]⟩
  | .pack imm => ⟨.pack, [imm.toNat]⟩
  | .pcommit => ⟨.pcommit, []⟩
  | .ubind src len => ⟨.ubind, [src.toNat, len.toNat]⟩
  | .unpack => ⟨.unpack, []⟩
  | .ufin => ⟨.ufin, []⟩
  | .encode src dst L => ⟨.encode, [src.toNat, dst.toNat, L.toNat]⟩
  | .decode src len dst count => ⟨.decode, [src.toNat, len.toNat, dst.toNat, count.toNat]⟩
  | .decodeRaw src len dst => ⟨.decodeRaw, [src.toNat, len.toNat, dst.toNat]⟩

/-- A command is well formed when the line it is written as is one the assembler accepts. It always is: the widths of
R72 and R73 are in the operands' types (proved in Laws/PerInstr.lean, one lemma per constructor). -/
def Instr.wellFormed (i : Instr) : Bool := i.line.wellFormed

end Sys2Proof
end

