-- ==== Sys2Proof/Decode.lean ====
section
/-! DEFINITION. The command encoding (spec/30_encoding.md R70 to R78): the opcode map, the decoder, which is total and
refuses by name, the encoder written from the same table, and the byte order of a serial link (D30). -/

namespace Sys2Proof

/-- The opcodes of R74. -/
abbrev opcNop : Byte := 0x00#8
abbrev opcSetw : Byte := 0x01#8
abbrev opcClrerr : Byte := 0x02#8
abbrev opcStat : Byte := 0x03#8
abbrev opcRdpp : Byte := 0x04#8
abbrev opcRdup : Byte := 0x05#8
abbrev opcRdur : Byte := 0x06#8
abbrev opcQfwd : Byte := 0x10#8
abbrev opcQinv : Byte := 0x11#8
abbrev opcPbind : Byte := 0x20#8
abbrev opcPack : Byte := 0x21#8
abbrev opcPcommit : Byte := 0x22#8
abbrev opcUbind : Byte := 0x30#8
abbrev opcUnpack : Byte := 0x31#8
abbrev opcUfin : Byte := 0x32#8
abbrev opcEncode : Byte := 0x40#8
abbrev opcDecode : Byte := 0x41#8
abbrev opcDecodeRaw : Byte := 0x42#8

/-- `OPC` = CW[7:0] (R71). -/
def opcField (cw : Word) : Byte := cw.extractLsb' 0 8

/-- `IMM` = CW[15:8] (R71, R72). -/
def immField (cw : Word) : Byte := cw.extractLsb' 8 8

/-- `RSV` = CW[31:16] (R71). -/
def rsvField (cw : Word) : BitVec 16 := cw.extractLsb' 16 16

/-- A row of the opcode map of R74: the opcode, whether the IMM column names a value, how many operand words follow, and
the command made of the immediate and the operand words. -/
structure Row where
  opc : Byte
  hasImm : Bool
  words : Nat
  make : Byte → List Word → Instr

/-- Operand word k of a packet (R73). -/
def operand (ws : List Word) (k : Nat) : Word := ws.getD k 0

/-- The opcode map, row for row (R74). -/
def opcodeMap : List Row :=
  [ ⟨opcNop, false, 0, fun _ _ => .nop⟩,
    ⟨opcSetw, true, 0, fun imm _ => .setw imm⟩,
    ⟨opcClrerr, false, 0, fun _ _ => .clrerr⟩,
    ⟨opcStat, false, 0, fun _ _ => .stat⟩,
    ⟨opcRdpp, false, 0, fun _ _ => .rdpp⟩,
    ⟨opcRdup, false, 0, fun _ _ => .rdup⟩,
    ⟨opcRdur, false, 0, fun _ _ => .rdur⟩,
    ⟨opcQfwd, true, 0, fun imm _ => .qfwd imm⟩,
    ⟨opcQinv, true, 0, fun imm _ => .qinv imm⟩,
    ⟨opcPbind, false, 1, fun _ ws => .pbind (operand ws 0)⟩,
    ⟨opcPack, true, 0, fun imm _ => .pack imm⟩,
    ⟨opcPcommit, false, 0, fun _ _ => .pcommit⟩,
    ⟨opcUbind, false, 2, fun _ ws => .ubind (operand ws 0) (operand ws 1)⟩,
    ⟨opcUnpack, false, 0, fun _ _ => .unpack⟩,
    ⟨opcUfin, false, 0, fun _ _ => .ufin⟩,
    ⟨opcEncode, false, 3, fun _ ws => .encode (operand ws 0) (operand ws 1) (operand ws 2)⟩,
    ⟨opcDecode, false, 4, fun _ ws => .decode (operand ws 0) (operand ws 1) (operand ws 2) (operand ws 3)⟩,
    ⟨opcDecodeRaw, false, 3, fun _ ws => .decodeRaw (operand ws 0) (operand ws 1) (operand ws 2)⟩ ]

/-- The row of an opcode; none where the opcode is unassigned (R74). -/
def findRow (opc : Byte) : Option Row := opcodeMap.find? fun r => r.opc == opc

/-- How many operand words follow a command word, from OPC alone: none for an unassigned opcode, and the row's number
whether or not the command word is legal (R75). -/
def operandCount (opc : Byte) : Nat :=
  match findRow opc with
  | some r => r.words
  | none => 0

/-- Why a packet is no command. The first three are the illegal command words of R76; the last is a packet that lacks
words of R75, which the spec does not represent (R233). -/
inductive DecodeError where
  /-- R76 item 1 -/
  | unassignedOpcode
  /-- R76 item 2 -/
  | reservedBits
  /-- R76 item 3 -/
  | nonzeroImmediate
  /-- no command word, or fewer operand words than R75 says -/
  | missingWords
  deriving DecidableEq, Repr

/-- The legality check of a command word (R76), and its row. No operand word is looked at. -/
def checkCommandWord (cw : Word) : Except DecodeError Row :=
  match findRow (opcField cw) with
  | none => .error .unassignedOpcode
  | some r =>
    if rsvField cw ≠ 0 then .error .reservedBits
    else if r.hasImm = false ∧ immField cw ≠ 0 then .error .nonzeroImmediate
    else .ok r

/-- Read one packet from the front of a list of port words: the command and the words after it (R70, R75, R76). It does
not look at the machine's state (R78). -/
def decode : List Word → Except DecodeError (Instr × List Word)
  | [] => .error .missingWords
  | cw :: rest =>
    match checkCommandWord cw with
    | .error e => .error e
    | .ok r =>
      if rest.length < r.words then .error .missingWords
      else .ok (r.make (immField cw) (rest.take r.words), rest.drop r.words)

/-- The command word of an opcode and an immediate, RSV being 0: `OPC | (IMM << 8)` (R71, R101). -/
def commandWord (opc imm : Byte) : Word := opc.setWidth 32 ||| (imm.setWidth 32 <<< 8)

/-- The packet of a command (R70, R74). -/
def encode : Instr → List Word
  | .nop => [commandWord opcNop 0]
  | .setw imm => [commandWord opcSetw imm]
  | .clrerr => [commandWord opcClrerr 0]
  | .stat => [commandWord opcStat 0]
  | .rdpp => [commandWord opcRdpp 0]
  | .rdup => [commandWord opcRdup 0]
  | .rdur => [commandWord opcRdur 0]
  | .qfwd imm => [commandWord opcQfwd imm]
  | .qinv imm => [commandWord opcQinv imm]
  | .pbind dst => [commandWord opcPbind 0, dst]
  | .pack imm => [commandWord opcPack imm]
  | .pcommit => [commandWord opcPcommit 0]
  | .ubind src len => [commandWord opcUbind 0, src, len]
  | .unpack => [commandWord opcUnpack 0]
  | .ufin => [commandWord opcUfin 0]
  | .encode src dst L => [commandWord opcEncode 0, src, dst, L]
  | .decode src len dst count => [commandWord opcDecode 0, src, len, dst, count]
  | .decodeRaw src len dst => [commandWord opcDecodeRaw 0, src, len, dst]

/-- The opcode a command is encoded with, which its response echoes (R74, R82). -/
def Instr.opcode : Instr → Byte
  | .nop => opcNop
  | .setw _ => opcSetw
  | .clrerr => opcClrerr
  | .stat => opcStat
  | .rdpp => opcRdpp
  | .rdup => opcRdup
  | .rdur => opcRdur
  | .qfwd _ => opcQfwd
  | .qinv _ => opcQinv
  | .pbind _ => opcPbind
  | .pack _ => opcPack
  | .pcommit => opcPcommit
  | .ubind _ _ => opcUbind
  | .unpack => opcUnpack
  | .ufin => opcUfin
  | .encode _ _ _ => opcEncode
  | .decode _ _ _ _ => opcDecode
  | .decodeRaw _ _ _ => opcDecodeRaw

/-- A word carried over a byte-wide link: the least significant byte first (D30; log 15). -/
def linkBytes (w : Word) : List Byte :=
  [w.extractLsb' 0 8, w.extractLsb' 8 8, w.extractLsb' 16 8, w.extractLsb' 24 8]

/-- The words that the bytes of a link carry, four bytes a word, the least significant first; bytes left over after the
last whole word carry none (D30; log 15). -/
def wordsOfLink : List Byte → List Word
  | b0 :: b1 :: b2 :: b3 :: rest =>
    (b0.setWidth 32 ||| (b1.setWidth 32 <<< 8) ||| (b2.setWidth 32 <<< 16) ||| (b3.setWidth 32 <<< 24)) ::
      wordsOfLink rest
  | _ => []

/-- The five words (the longest packet, R70) of an instruction given as one number whose bits above `nbits` are 0: bits
31..0 are the command word, each later word counts on from there. -/
def tableWords (nbits w : Nat) : List Word :=
  [0, 1, 2, 3, 4].map fun k => BitVec.ofNat 32 ((w % 2 ^ nbits) >>> (32 * k))

/-- The packet of that instruction: its command word and the operand words that R75 says follow it. -/
def tablePacket (nbits w : Nat) : List Word :=
  match tableWords nbits w with
  | [] => []
  | cw :: rest => cw :: rest.take (operandCount (opcField cw))

/-- The command the decoder reads from an instruction numbered as spec/opcode_table.json numbers its bits. -/
def decodeTableWord (nbits w : Nat) : Option Instr :=
  match decode (tablePacket nbits w) with
  | .ok (i, _) => some i
  | .error _ => none

end Sys2Proof
end

