-- ==== Sys2Proof/Machine/State.lean ====
section
/-! DEFINITION. The state of the BPQ core (spec/10_state.md), the reasons a step can stop, and the reset state
(spec/70_reset_and_hazards.md R220). -/

namespace Sys2Proof.Machine

/-- `DISP`: the width-derived parameters (R21, R22; the spec gives the fields no widths, log 14). -/
structure Disp where
  mask : Byte
  shift : Nat
  scale : Nat
  cpb : Nat
  deriving DecidableEq, Repr

/-- `M`: MEM_SIZE bytes at addresses 0 to MEM_SIZE - 1 (R32, R50), as the size and the list of the cells whose byte is
not `Memory.unlisted`, at strictly rising addresses. -/
structure Memory where
  size : Nat
  cells : List Host.Cell
  deriving DecidableEq, Repr

/-- What an address of `M` that the list does not name reads as. It fixes no content: the reset state lists every byte
of MEM_INIT that differs from it (log 2). -/
def Memory.unlisted : Byte := 0

/-- A list of cells in canonical form above address `lo`: strictly rising addresses, no unlisted byte, none at or past
`size`. -/
def Memory.cellsWf (size : Nat) : Nat → List Host.Cell → Bool
  | _, [] => true
  | lo, (a, b) :: rest => decide (lo ≤ a) && decide (a < size) && (b != unlisted) && cellsWf size (a + 1) rest

/-- The canonical form of a memory, and the bounds of MEM_SIZE (R50). -/
def Memory.wf (m : Memory) : Bool :=
  decide (1 ≤ m.size) && decide (m.size ≤ 2 ^ 32) && Memory.cellsWf m.size 0 m.cells

/-- A memory of `size` bytes that holds `init a` at each address `a`: `M` at power-on (R220). -/
def Memory.initial (size : Nat) (init : Word → Byte) : Memory where
  size := size
  cells := (List.range size).filterMap fun a =>
    if init (BitVec.ofNat 32 a) = Memory.unlisted then none else some (a, init (BitVec.ofNat 32 a))

/-- A response packet: the words RESP and VALUE (R82). -/
structure Response where
  resp : Word
  value : Word
  deriving DecidableEq, Repr

/-- What the host does towards the core, in the order it arrives (R64; log 5). -/
inductive HostEvent where
  /-- one word on the command port (R70) -/
  | word (w : Word)
  /-- the host writes a byte of `M` between commands (R62, R64) -/
  | write (a : Word) (b : Byte)
  /-- the host asserts reset between commands (R64, R221) -/
  | reset
  deriving DecidableEq, Repr

/-- The state of 10_state.md, two parameters of the implementation, and the two ports. -/
structure State where
  /-- `S.W`, the code width (R20) -/
  w : BitVec 4
  /-- `S.DISP` (R21) -/
  disp : Disp
  /-- `S.P_ACC`, the packer's accumulator (R24) -/
  pAcc : Byte
  /-- `S.P_OFF`, the packer's bit offset (R25) -/
  pOff : BitVec 4
  /-- `S.P_PTR`, where the packer's next byte goes (R26) -/
  pPtr : Word
  /-- `S.U_PTR`, the unpacker's current byte (R27) -/
  uPtr : Word
  /-- `S.U_REM`, the bytes left in the bound buffer (R27) -/
  uRem : Word
  /-- `S.U_OFF`, the unpacker's bit offset (R28) -/
  uOff : BitVec 4
  /-- `S.ERRS`, the sticky error bits (R31) -/
  errs : BitVec 7
  /-- `S.M`, the data memory (R32) -/
  mem : Memory
  /-- `INV_IMPL`, fixed for an implementation (R6; log 3) -/
  invImpl : InvImpl
  /-- what has arrived from the host and is not yet taken, oldest first (R64; log 5) -/
  input : List HostEvent
  /-- the response packets sent, oldest first (R70, R82, R233; log 8) -/
  responses : List Response
  deriving DecidableEq, Repr

/-- Why the machine stops with a fault. None is an error of R200: those are responses, after which it goes on. -/
inductive Fault where
  /-- Raised by UNPACK when U_REM > 0 and U_PTR is not an address of `M`, which no run reaches (R141: "It cannot raise
  BusError"). Safe: the spec gives no byte there (log 10). -/
  | noSuchAddress
  /-- Raised by a host write to an address that is not in `M` (R64: "any address of M"). Safe (log 9). -/
  | hostWriteOutsideMemory
  deriving DecidableEq, Repr

/-- Why a step is refused. -/
inductive Refusal where
  /-- Raised by an arm of `exec` that has no meaning; no arm of this model is one. Safe. -/
  | notModelled (mnemonic : String)
  /-- Raised by a step whose packet lacks words: "a packet sent only in part, which the model does not represent"
  (R233). Safe (log 7). -/
  | partialPacket
  deriving DecidableEq, Repr

/-- Power-on, for given values of the open parameters: every register at its value of R220, `M` at MEM_INIT. -/
def State.powerOn (size : Nat) (init : Word → Byte) (impl : InvImpl) : State where
  w := 8#4
  disp := { mask := 0xFF#8, shift := 0, scale := 1, cpb := 1 }
  pAcc := 0x00#8
  pOff := 0#4
  pPtr := 0x00000000#32
  uPtr := 0x00000000#32
  uRem := 0x00000000#32
  uOff := 0#4
  errs := 0b0000000#7
  mem := Memory.initial size init
  invImpl := impl
  input := []
  responses := []

/-- The machine right after power-on reset, its parameters left open (R6, R220). -/
def State.reset : State := State.powerOn Config.memSize Config.memInit Config.invImpl

/-- New memory, everything else kept. -/
def State.setMem (s : State) (m : Memory) : State := { s with mem := m }

/-- New error bits, everything else kept. -/
def State.setErrs (s : State) (e : BitVec 7) : State := { s with errs := e }

/-- A new width and its parameters, everything else kept. -/
def State.setWidth (s : State) (w : BitVec 4) (d : Disp) : State := { s with w := w, disp := d }

/-- The packer's three registers, everything else kept. -/
def State.setPacker (s : State) (acc : Byte) (off : BitVec 4) (ptr : Word) : State :=
  { s with pAcc := acc, pOff := off, pPtr := ptr }

/-- The unpacker's three registers, everything else kept. -/
def State.setUnpacker (s : State) (ptr rem : Word) (off : BitVec 4) : State :=
  { s with uPtr := ptr, uRem := rem, uOff := off }

/-- What is still to be taken from the host, everything else kept. -/
def State.setInput (s : State) (es : List HostEvent) : State := { s with input := es }

/-- One more response packet sent, everything else kept. -/
def State.addResponse (s : State) (r : Response) : State := { s with responses := s.responses ++ [r] }

end Sys2Proof.Machine
end

