-- ==== Sys2Proof/Machine/Operands.lean ====
section
/-! DEFINITION. What the commands compute from the width, an immediate and a range: the dispatch table and the inverse
table (spec/10_state.md R22, R23), the quantizer (43_quantizer.md), code extraction (20_memory.md R53) and the range
predicates (R55, R56). -/

namespace Sys2Proof.Machine

/-- `DISPATCH(N)`, by the formulas of R22. -/
def dispatch (n : Nat) : Disp where
  mask := BitVec.ofNat 8 (2 ^ n - 1)
  shift := 8 - n
  scale := 255 / (2 ^ n - 1)
  cpb := 8 / n

/-- The widths SETW accepts (R20, R101). -/
def legalWidth (n : Nat) : Bool := n == 1 || n == 2 || n == 4 || n == 8

/-- `INV_LUT(N)`, its contents as R23 lists them. -/
def invLut (n : Nat) : List Nat :=
  if n = 1 then [0, 255]
  else if n = 2 then [0, 85, 170, 255]
  else if n = 4 then [0, 17, 34, 51, 68, 85, 102, 119, 136, 153, 170, 187, 204, 221, 238, 255]
  else if n = 8 then List.range 256
  else []

/-- `N` = S.W (R10). -/
def State.width (s : State) : Nat := s.w.toNat

/-- Forward quantization: `sample >> SHIFT` (R160). -/
def State.quantize (s : State) (sample : Byte) : Byte := sample >>> s.disp.shift

/-- Inverse quantization of a code, by the table or by the multiplier, as `INV_IMPL` says (R161, R163). -/
def State.dequantize (s : State) (code : Byte) : Nat :=
  match s.invImpl with
  | .lut => (invLut s.width).getD code.toNat 0
  | .scale => code.toNat * s.disp.scale

/-- The low N bits of an immediate: `imm & MASK` (R121). -/
def State.maskCode (s : State) (imm : Byte) : Byte := imm &&& s.disp.mask

/-- The code at bit `off` of a packed byte: `(b >> off) & MASK` (R53, R141). -/
def State.codeAt (s : State) (b : Byte) (off : Nat) : Byte := (b >>> off) &&& s.disp.mask

/-- `ceil_div(a, b)` (R8). -/
def ceilDiv (a b : Nat) : Nat := (a + b - 1) / b

/-- The bytes that L codes pack into: `ceil_div(L * N, 8)` (R182). -/
def State.packedBytes (s : State) (L : Word) : Nat := ceilDiv (L.toNat * s.width) 8

/-- The codes that `len` packed bytes hold: `len * CPB` (R183, R184). -/
def State.codesIn (s : State) (len : Word) : Nat := len.toNat * s.disp.cpb

/-- `in_range(a, n)` (R55). -/
def Memory.inRange (m : Memory) (a n : Nat) : Bool := n == 0 || decide (a + n ≤ m.size)

/-- `overlaps(a, n, b, m)` (R56). -/
def overlaps (a n b m : Nat) : Bool :=
  decide (0 < n) && decide (0 < m) && decide (a < b + m) && decide (b < a + n)

end Sys2Proof.Machine
end

