-- ==== Sys2Proof/Machine/Flags.lean ====
section
/-! DEFINITION. The error codes and their sticky bits (spec/60_exceptions.md R200, 10_state.md R31), FIN (R29), the
status word (R30) and the RESP word (30_encoding.md R82). -/

namespace Sys2Proof.Machine

/-- The errors of R200. -/
inductive ErrCode where
  /-- SETW with a width other than 1, 2, 4, 8 -/
  | invalidWidth
  /-- UNPACK with nothing left to read -/
  | bufferUnderrun
  /-- an illegal command word (R76) -/
  | illegalCommand
  /-- a byte to be accessed lies outside `M` -/
  | busError
  /-- source and destination share a byte -/
  | overlap
  /-- DECODE of more samples than the source holds codes -/
  | countOverrun
  /-- QINV of a code above MASK -/
  | codeRange
  deriving DecidableEq, Repr

/-- The code column of R200. -/
def ErrCode.code : ErrCode → BitVec 4
  | .invalidWidth => 1
  | .bufferUnderrun => 2
  | .illegalCommand => 3
  | .busError => 4
  | .overlap => 5
  | .countOverrun => 6
  | .codeRange => 7

/-- The ERRS bit of an error: "an error of code k sets bit k - 1" (R31). -/
def ErrCode.bit (e : ErrCode) : BitVec 7 := 1#7 <<< (e.code.toNat - 1)

/-- `FIN`: 1 when U_REM = 0 (R29). -/
def State.fin (s : State) : BitVec 1 := if s.uRem = 0 then 1 else 0

/-- The status word, as R103 puts it together; its layout is R30's. -/
def State.statusWord (s : State) : Word :=
  s.w.setWidth 32 ||| (s.pOff.setWidth 32 <<< 4) ||| (s.uOff.setWidth 32 <<< 8) ||| (s.fin.setWidth 32 <<< 12) |||
    (s.pAcc.setWidth 32 <<< 16) ||| (s.errs.setWidth 32 <<< 24)

/-- The RESP word, `CODE | (OPC << 8)` (R82, R84). -/
def respWord (code : BitVec 4) (opc : Byte) : Word := code.setWidth 32 ||| (opc.setWidth 32 <<< 8)

end Sys2Proof.Machine
end

