-- ==== Sys2Proof/Machine/Ops.lean ====
section
/-! DEFINITION. The operations the commands share: the memory primitives (spec/20_memory.md R52, R59), ending a command
with a response (00_scope.md R9), raising an error (60_exceptions.md R203), the streaming packer and unpacker, and the
codec's private packer and its loops (44_codec.md R180 to R184). -/

namespace Sys2Proof.Machine

/-- The byte that a list of cells gives for an address. -/
def readCells : List Host.Cell → Nat → Byte
  | [], _ => Memory.unlisted
  | (x, v) :: rest, a => if x = a then v else readCells rest a

/-- The cell of an address, for a byte: no cell where the byte is what an unlisted address reads as. -/
def cellOf (a : Nat) (b : Byte) : List Host.Cell := if b = Memory.unlisted then [] else [(a, b)]

/-- Store a byte in a list of cells, keeping its canonical form. -/
def writeCells : List Host.Cell → Nat → Byte → List Host.Cell
  | [], a, b => cellOf a b
  | (x, v) :: rest, a, b =>
    if a < x then cellOf a b ++ (x, v) :: rest
    else if a = x then cellOf a b ++ rest
    else (x, v) :: writeCells rest a b

/-- `MemRead(a, 1)` (R9, R52): the byte last written at `a`, or the MEM_INIT byte (R59). -/
def Memory.read (m : Memory) (a : Nat) : Byte := readCells m.cells a

/-- `MemWrite(a, 1, b)` (R9, R52). It is used on addresses that have passed the range check; at any other there is no
byte to write. -/
def Memory.write (m : Memory) (a : Nat) (b : Byte) : Memory :=
  if a < m.size then { m with cells := writeCells m.cells a b } else m

/-- `respond(v)`: the command ends with code 0 and value v (R9, R82). -/
def State.respond (s : State) (opc : Byte) (v : Word) : State :=
  s.addResponse { resp := respWord 0 opc, value := v }

/-- `raise <Error>`: error entry, the one way a command fails (R203). ERRS gets the error's bit, the response holds the
error's code and the value 0, and nothing else changes. There is no handler and no saved context, so there is no return
from it (R204, R205). -/
def State.raise (s : State) (e : ErrCode) (opc : Byte) : State :=
  (s.setErrs (s.errs ||| e.bit)).addResponse { resp := respWord e.code opc, value := 0 }

/-- CLRERR's part in the place of a return from an error: every sticky bit is cleared (R102, R204). -/
def State.clearErrs (s : State) : State := s.setErrs 0

/-- The construction of a width-specific packer and unpacker (R101): the partial byte is discarded and no buffer is
bound; the pointers are kept. -/
def State.selectWidth (s : State) (n : Nat) : State :=
  ((s.setWidth (BitVec.ofNat 4 n) (dispatch n)).setPacker 0 0 s.pPtr).setUnpacker s.uPtr 0 0

/-- Append a byte to the packer's output and start an empty one (R121, R122): it goes to `M[P_PTR]`, P_PTR advances
modulo 2^32, accumulator and offset reset. A P_PTR outside `M` raises BusError and takes nothing. -/
def State.emitByte (s : State) (b : Byte) (opc : Byte) : State :=
  if s.mem.inRange s.pPtr.toNat 1 then
    ((s.setMem (s.mem.write s.pPtr.toNat b)).setPacker 0 0 (s.pPtr + 1)).respond opc 1
  else s.raise .busError opc

/-- Move the unpacker past the code at U_OFF (R141). -/
def State.advanceUnpacker (s : State) : State :=
  if s.uOff.toNat + s.width = 8 then s.setUnpacker (s.uPtr + 1) (s.uRem - 1) 0
  else s.setUnpacker s.uPtr s.uRem (BitVec.ofNat 4 (s.uOff.toNat + s.width))

/-- The private packer of an ENCODE (R180, R182): `acc`, `off`, `p` and the memory it writes. -/
structure PackRun where
  acc : Byte
  off : Nat
  ptr : Nat
  mem : Memory
  deriving DecidableEq, Repr

/-- `BitPacker.encode` of one code (R182): insert it at the offset; a full byte is appended. -/
def State.packCode (s : State) (r : PackRun) (code : Byte) : PackRun :=
  let acc := r.acc ||| (s.maskCode code <<< r.off)
  if r.off + s.width = 8 then { acc := 0, off := 0, ptr := r.ptr + 1, mem := r.mem.write r.ptr acc }
  else { r with acc := acc, off := r.off + s.width }

/-- `BitPacker.commit`: a partial byte is appended as it is (R182). -/
def PackRun.commit (r : PackRun) : Memory := if 0 < r.off then r.mem.write r.ptr r.acc else r.mem

/-- The loop of ENCODE, `k` samples from sample `i` on (R182). -/
def State.encodeLoop (s : State) (src : Nat) : Nat → Nat → PackRun → PackRun
  | 0, _, r => r
  | k + 1, i, r => s.encodeLoop src k (i + 1) (s.packCode r (s.quantize (r.mem.read (src + i))))

/-- What ENCODE of L samples leaves in memory (R182). -/
def State.encodeMem (s : State) (src dst L : Nat) : Memory :=
  (s.encodeLoop src L 0 { acc := 0, off := 0, ptr := dst, mem := s.mem }).commit

/-- Sample j of a packed buffer: the code at its place (R54), dequantized (R183). -/
def State.sampleAt (s : State) (m : Memory) (src j : Nat) : Byte :=
  BitVec.ofNat 8
    (s.dequantize (s.codeAt (m.read (src + j / s.disp.cpb)) ((j % s.disp.cpb) * s.width)))

/-- The loop of DECODE and DECODE_RAW, `k` samples from sample `j` on (R183, R184). -/
def State.decodeLoop (s : State) (src dst : Nat) : Nat → Nat → Memory → Memory
  | 0, _, m => m
  | k + 1, j, m => s.decodeLoop src dst k (j + 1) (m.write (dst + j) (s.sampleAt m src j))

/-- The checks every codec command makes before it touches `M`, in their order: source range, destination range, overlap
(R181). -/
def Memory.codecCheck (m : Memory) (src n dst k : Nat) : Option ErrCode :=
  if !m.inRange src n then some .busError
  else if !m.inRange dst k then some .busError
  else if overlaps src n dst k then some .overlap
  else none

end Sys2Proof.Machine
end

