-- ==== Sys2Proof/Machine/Codec.lean ====
section
/-! DEFINITION. The codec commands (spec/44_codec.md R180 to R184). They run on private packers and unpackers and leave
the streaming state alone (R180); every check precedes every access (R181). -/

namespace Sys2Proof.Machine

/-- ENCODE src, dst, L (R182). -/
def execEncode (src dst L : Word) (s : State) : Host.Outcome State Fault Refusal :=
  .next (match s.mem.codecCheck src.toNat L.toNat dst.toNat (s.packedBytes L) with
    | some e => s.raise e opcEncode
    | none => (s.setMem (s.encodeMem src.toNat dst.toNat L.toNat)).respond opcEncode (BitVec.ofNat 32 (s.packedBytes L)))

/-- DECODE src, len, dst, count (R183): after the range checks, a count above the codes the source holds raises
CountOverrun. -/
def execDecode (src len dst count : Word) (s : State) : Host.Outcome State Fault Refusal :=
  .next (match s.mem.codecCheck src.toNat len.toNat dst.toNat count.toNat with
    | some e => s.raise e opcDecode
    | none =>
      if s.codesIn len < count.toNat then s.raise .countOverrun opcDecode
      else (s.setMem (s.decodeLoop src.toNat dst.toNat count.toNat 0 s.mem)).respond opcDecode count)

/-- DECODE_RAW src, len, dst (R184): every code of the buffer, padding included. -/
def execDecodeRaw (src len dst : Word) (s : State) : Host.Outcome State Fault Refusal :=
  .next (match s.mem.codecCheck src.toNat len.toNat dst.toNat (s.codesIn len) with
    | some e => s.raise e opcDecodeRaw
    | none =>
      (s.setMem (s.decodeLoop src.toNat dst.toNat (s.codesIn len) 0 s.mem)).respond opcDecodeRaw
        (BitVec.ofNat 32 (s.codesIn len)))

end Sys2Proof.Machine
end

