-- ==== Sys2Proof/Machine/Control.lean ====
section
/-! DEFINITION. The control commands (spec/40_control.md R100 to R106). -/

namespace Sys2Proof.Machine

/-- NOP (R100). -/
def execNop (s : State) : Host.Outcome State Fault Refusal := .next (s.respond opcNop 0)

/-- SETW N (R101): a legal width builds a new packer and unpacker; any other raises InvalidWidth. -/
def execSetw (imm : Byte) (s : State) : Host.Outcome State Fault Refusal :=
  .next (if legalWidth imm.toNat then (s.selectWidth imm.toNat).respond opcSetw 0 else s.raise .invalidWidth opcSetw)

/-- CLRERR (R102). -/
def execClrerr (s : State) : Host.Outcome State Fault Refusal := .next (s.clearErrs.respond opcClrerr 0)

/-- STAT (R103). -/
def execStat (s : State) : Host.Outcome State Fault Refusal := .next (s.respond opcStat s.statusWord)

/-- RDPP (R104). -/
def execRdpp (s : State) : Host.Outcome State Fault Refusal := .next (s.respond opcRdpp s.pPtr)

/-- RDUP (R105). -/
def execRdup (s : State) : Host.Outcome State Fault Refusal := .next (s.respond opcRdup s.uPtr)

/-- RDUR (R106). -/
def execRdur (s : State) : Host.Outcome State Fault Refusal := .next (s.respond opcRdur s.uRem)

end Sys2Proof.Machine
end

