-- ==== Sys2Proof/Machine/Packer.lean ====
section
/-! DEFINITION. The streaming packer's commands (spec/41_packer.md R120 to R122). -/

namespace Sys2Proof.Machine

/-- PBIND dst (R120): a new session; a partial byte is dropped; `dst` is not checked. -/
def execPbind (dst : Word) (s : State) : Host.Outcome State Fault Refusal :=
  .next ((s.setPacker 0 0 dst).respond opcPbind 0)

/-- PACK code (R121): the masked code goes in at P_OFF; a byte that becomes full is written to `M[P_PTR]`. -/
def execPack (imm : Byte) (s : State) : Host.Outcome State Fault Refusal :=
  let acc := s.pAcc ||| (s.maskCode imm <<< s.pOff.toNat)
  let off := s.pOff.toNat + s.width
  .next (if off = 8 then s.emitByte acc opcPack
    else (s.setPacker acc (BitVec.ofNat 4 off) s.pPtr).respond opcPack 0)

/-- PCOMMIT (R122): a partial byte is written as it is; with none nothing changes. -/
def execPcommit (s : State) : Host.Outcome State Fault Refusal :=
  .next (if 0 < s.pOff.toNat then s.emitByte s.pAcc opcPcommit else s.respond opcPcommit 0)

end Sys2Proof.Machine
end

