-- ==== Sys2Proof/Machine/Quantizer.lean ====
section
/-! DEFINITION. The quantizer commands (spec/43_quantizer.md R160, R161). -/

namespace Sys2Proof.Machine

/-- QFWD sample (R160). -/
def execQfwd (imm : Byte) (s : State) : Host.Outcome State Fault Refusal :=
  .next (s.respond opcQfwd ((s.quantize imm).setWidth 32))

/-- QINV code (R161): a code above MASK raises CodeRange. -/
def execQinv (imm : Byte) (s : State) : Host.Outcome State Fault Refusal :=
  .next (if s.disp.mask < imm then s.raise .codeRange opcQinv
    else s.respond opcQinv (BitVec.ofNat 32 (s.dequantize imm)))

end Sys2Proof.Machine
end

