-- ==== Sys2Proof/Machine/Unpacker.lean ====
section
/-! DEFINITION. The streaming unpacker's commands (spec/42_unpacker.md R140 to R142). -/

namespace Sys2Proof.Machine

/-- UBIND src, len (R140): the whole range is checked once; a range outside `M` raises BusError. -/
def execUbind (src len : Word) (s : State) : Host.Outcome State Fault Refusal :=
  .next (if s.mem.inRange src.toNat len.toNat then (s.setUnpacker src len 0).respond opcUbind 0
    else s.raise .busError opcUbind)

/-- UNPACK (R141): the byte at U_PTR is read afresh and the code at U_OFF is the value; with nothing left it raises
BufferUnderrun. DEDUCED, safe (log 10): where U_PTR is no address of `M`, which no run reaches, there is no byte to
read, and the machine stops with a fault. -/
def execUnpack (s : State) : Host.Outcome State Fault Refusal :=
  if s.uRem = 0 then .next (s.raise .bufferUnderrun opcUnpack)
  else if s.mem.inRange s.uPtr.toNat 1 then
    .next (s.advanceUnpacker.respond opcUnpack
      ((s.codeAt (s.mem.read s.uPtr.toNat) s.uOff.toNat).setWidth 32))
  else .fault .noSuchAddress

/-- UFIN (R142). -/
def execUfin (s : State) : Host.Outcome State Fault Refusal := .next (s.respond opcUfin (s.fin.setWidth 32))

end Sys2Proof.Machine
end

