-- ==== Sys2Proof/Machine/Dispatch.lean ====
section
/-! DEFINITION. One arm per command of spec/30_encoding.md R74, each a direct call of its meaning. -/

namespace Sys2Proof.Machine

def exec (i : Instr) (s : State) : Host.Outcome State Fault Refusal :=
  match i with
  | .nop => Sys2Proof.Machine.execNop s
  | .setw imm => Sys2Proof.Machine.execSetw imm s
  | .clrerr => Sys2Proof.Machine.execClrerr s
  | .stat => Sys2Proof.Machine.execStat s
  | .rdpp => Sys2Proof.Machine.execRdpp s
  | .rdup => Sys2Proof.Machine.execRdup s
  | .rdur => Sys2Proof.Machine.execRdur s
  | .qfwd imm => Sys2Proof.Machine.execQfwd imm s
  | .qinv imm => Sys2Proof.Machine.execQinv imm s
  | .pbind dst => Sys2Proof.Machine.execPbind dst s
  | .pack imm => Sys2Proof.Machine.execPack imm s
  | .pcommit => Sys2Proof.Machine.execPcommit s
  | .ubind src len => Sys2Proof.Machine.execUbind src len s
  | .unpack => Sys2Proof.Machine.execUnpack s
  | .ufin => Sys2Proof.Machine.execUfin s
  | .encode src dst L => Sys2Proof.Machine.execEncode src dst L s
  | .decode src len dst count => Sys2Proof.Machine.execDecode src len dst count s
  | .decodeRaw src len dst => Sys2Proof.Machine.execDecodeRaw src len dst s

end Sys2Proof.Machine
end

