-- ==== Sys2Proof/Machine/Port.lean ====
section
/-! DEFINITION. What arrives from the host (spec/20_memory.md R64): taking a packet from the command port
(30_encoding.md R70, R75), an illegal command word (R76, R84), a host write, a host read, and a later reset
(70_reset_and_hazards.md R220, R221). -/

namespace Sys2Proof.Machine

/-- The next `k` words of the port and what is left after them; none where they have not all arrived. -/
def takeWords : Nat → List HostEvent → Option (List Word × List HostEvent)
  | 0, es => some ([], es)
  | k + 1, .word w :: es =>
    match takeWords k es with
    | some (ws, rest) => some (w :: ws, rest)
    | none => none
  | _ + 1, _ => none

/-- What the core does next. -/
inductive Pending where
  /-- nothing has arrived: it waits (log 6) -/
  | idle
  /-- reset comes between commands (R221) -/
  | reset (rest : List HostEvent)
  /-- the host writes between commands (R62) -/
  | write (a : Word) (b : Byte) (rest : List HostEvent)
  /-- a whole packet: the command word and exactly the operand words of R75 -/
  | packet (cw : Word) (ops : List Word) (rest : List HostEvent)
  /-- a packet that lacks words (log 7) -/
  | partialPacket
  deriving DecidableEq, Repr

/-- What stands at the front of the input: the packet's length follows from OPC alone (R75). -/
def nextPending : List HostEvent → Pending
  | [] => .idle
  | .reset :: rest => .reset rest
  | .write a b :: rest => .write a b rest
  | .word cw :: rest =>
    match takeWords (operandCount (opcField cw)) rest with
    | some (ops, rest') => .packet cw ops rest'
    | none => .partialPacket

/-- The host sends whole packets, one after the other, after what it has already sent (R64, R70). -/
def State.send (s : State) (is : List Instr) : State :=
  s.setInput (s.input ++ (is.flatMap encode).map .word)

/-- An illegal command word: IllegalCommand, with the OPC field echoed, and nothing else (R76, R84). -/
def State.illegal (s : State) (cw : Word) : State := s.raise .illegalCommand (opcField cw)

/-- The host writes a byte of `M` (R64). DESIGN CHOICE, safe (log 9): an address outside `M` is a fault. -/
def hostWrite (a : Word) (b : Byte) (s : State) : Host.Outcome State Fault Refusal :=
  if s.mem.inRange a.toNat 1 then .next (s.setMem (s.mem.write a.toNat b)) else .fault .hostWriteOutsideMemory

/-- The host reads a byte of `M` between commands (R64): an observation, which changes nothing (R59; log 17). -/
def State.hostRead (s : State) (a : Word) : Option Byte :=
  if s.mem.inRange a.toNat 1 then some (s.mem.read a.toNat) else none

/-- A later reset (R220): every register at its reset value, `M` unchanged. What the host has still to send and the
responses already sent are no state of the core, and stay (log 12). -/
def State.warmReset (s : State) : State :=
  (((s.setWidth 8#4 (dispatch 8)).setPacker 0 0 0).setUnpacker 0 0 0).setErrs 0

end Sys2Proof.Machine
end

