-- ==== Sys2Proof/Machine/Packet.lean ====
section
/-! DEFINITION. Running one packet taken from the command port (spec/30_encoding.md R75, R76). -/

namespace Sys2Proof.Machine

/-- Decode a packet and execute its command; an illegal command word raises IllegalCommand, and no operand word is
interpreted (R76). -/
def runPacket (cw : Word) (ops : List Word) (s : State) : Host.Outcome State Fault Refusal :=
  match decode (cw :: ops) with
  | .ok (i, _) => exec i s
  | .error _ => .next (s.illegal cw)

end Sys2Proof.Machine
end

