-- ==== Sys2Proof/Machine/Step.lean ====
section
/-! DEFINITION. One step: the next thing the host has sent or done, whole (spec/20_memory.md R58, R61,
70_reset_and_hazards.md R231). -/

namespace Sys2Proof.Machine

/-- One step of the core. With nothing to do it waits (log 6); a reset or a host write takes place between commands; a
packet is taken from the port and its command executed, or IllegalCommand raised (R76). -/
def step (s : State) : Host.Outcome State Fault Refusal :=
  match nextPending s.input with
  | .idle => .next s
  | .reset rest => .next (s.setInput rest).warmReset
  | .write a b rest => hostWrite a b (s.setInput rest)
  | .packet cw ops rest => runPacket cw ops (s.setInput rest)
  | .partialPacket => .refused .partialPacket

/-- The host sends first the packet of the instruction whose bits are `w`, the bits above `nbits` being 0. The core
fetches from its command port (R65, R70), so this is the whole of it; what the host had sent comes after (log 5). -/
def State.withFetchWord (s : State) (nbits w : Nat) : State :=
  s.setInput ((tablePacket nbits w).map .word ++ s.input)

end Sys2Proof.Machine
end

