-- ==== Sys2Proof/Machine/Assembler.lean ====
section
/-! DEFINITION. The assembler's syntax and its pseudo-commands (spec/30_encoding.md R79, R80): from a line of text to a
line of numbers, to commands, to packet words. It is the host's tool, not a part of the core. What R79 leaves open of
the text is the model's choice (log 16). -/

namespace Sys2Proof

/-- The mnemonics as R74 and R80 spell them. -/
def mnemonicTexts : List (List Char × Mnemonic) :=
  [ (['N', 'O', 'P'], .nop),
    (['S', 'E', 'T', 'W'], .setw),
    (['C', 'L', 'R', 'E', 'R', 'R'], .clrerr),
    (['S', 'T', 'A', 'T'], .stat),
    (['R', 'D', 'P', 'P'], .rdpp),
    (['R', 'D', 'U', 'P'], .rdup),
    (['R', 'D', 'U', 'R'], .rdur),
    (['Q', 'F', 'W', 'D'], .qfwd),
    (['Q', 'I', 'N', 'V'], .qinv),
    (['P', 'B', 'I', 'N', 'D'], .pbind),
    (['P', 'A', 'C', 'K'], .pack),
    (['P', 'C', 'O', 'M', 'M', 'I', 'T'], .pcommit),
    (['U', 'B', 'I', 'N', 'D'], .ubind),
    (['U', 'N', 'P', 'A', 'C', 'K'], .unpack),
    (['U', 'F', 'I', 'N'], .ufin),
    (['E', 'N', 'C', 'O', 'D', 'E'], .encode),
    (['D', 'E', 'C', 'O', 'D', 'E'], .decode),
    (['D', 'E', 'C', 'O', 'D', 'E', '_', 'R', 'A', 'W'], .decodeRaw),
    (['E', 'N', 'C', 'W'], .encw),
    (['D', 'E', 'C', 'W'], .decw) ]

/-- Blanks and tabs separate (log 16). -/
def isBlank (c : Char) : Bool := c == ' ' || c == '\t'

/-- A text without the blanks at its two ends. -/
def trim (cs : List Char) : List Char := ((cs.dropWhile isBlank).reverse.dropWhile isBlank).reverse

/-- A text cut at its commas (R79). -/
def splitCommas : List Char → List (List Char)
  | [] => [[]]
  | c :: cs =>
    if c = ',' then [] :: splitCommas cs
    else match splitCommas cs with
      | [] => [[c]]
      | piece :: more => (c :: piece) :: more

/-- The value of a digit; hexadecimal letters in either case (log 16). -/
def digitValue (c : Char) : Option Nat :=
  if '0' ≤ c ∧ c ≤ '9' then some (c.toNat - '0'.toNat)
  else if 'a' ≤ c ∧ c ≤ 'f' then some (c.toNat - 'a'.toNat + 10)
  else if 'A' ≤ c ∧ c ≤ 'F' then some (c.toNat - 'A'.toNat + 10)
  else none

/-- The number that digits of a base write, after the value `acc` of those before. -/
def digitsValue (base : Nat) : Nat → List Char → Option Nat
  | acc, [] => some acc
  | acc, c :: cs =>
    match digitValue c with
    | none => none
    | some d => if d < base then digitsValue base (acc * base + d) cs else none

/-- "Numbers are decimal or 0x hexadecimal" (R79). -/
def parseNumber : List Char → Option Nat
  | [] => none
  | '0' :: 'x' :: c :: cs => digitsValue 16 0 (c :: cs)
  | c :: cs => digitsValue 10 0 (c :: cs)

/-- The numbers of an operand field, all of them or none. -/
def parseNumbers : List (List Char) → Option (List Nat)
  | [] => some []
  | t :: ts =>
    match parseNumber (trim t), parseNumbers ts with
    | some n, some ns => some (n :: ns)
    | _, _ => none

/-- One line of text (R79): the mnemonic, then its operands separated by commas; a comment starts with `;`; a line with
nothing on it is none. -/
def parseLine (text : List Char) : Except AsmError (Option AsmLine) :=
  match trim (text.takeWhile fun c => c != ';') with
  | [] => .ok none
  | line@(_ :: _) =>
    match mnemonicTexts.lookup (line.takeWhile fun c => !isBlank c) with
    | none => .error .unknownMnemonic
    | some m =>
      match trim (line.dropWhile fun c => !isBlank c) with
      | [] => .ok (some ⟨m, []⟩)
      | field@(_ :: _) =>
        match parseNumbers (splitCommas field) with
        | some ns => .ok (some ⟨m, ns⟩)
        | none => .error .badNumber

/-- Operand word k of a line. -/
def AsmLine.word (l : AsmLine) (k : Nat) : Word := BitVec.ofNat 32 (l.operands.getD k 0)

/-- The immediate of a line as a byte. -/
def AsmLine.immByte (l : AsmLine) : Byte := BitVec.ofNat 8 l.imm

/-- The commands a well-formed line stands for: one, or the two of a pseudo-command (R74, R79, R80). -/
def AsmLine.commands (l : AsmLine) : List Instr :=
  match l.mnemonic with
  | .nop => [.nop]
  | .setw => [.setw l.immByte]
  | .clrerr => [.clrerr]
  | .stat => [.stat]
  | .rdpp => [.rdpp]
  | .rdup => [.rdup]
  | .rdur => [.rdur]
  | .qfwd => [.qfwd l.immByte]
  | .qinv => [.qinv l.immByte]
  | .pbind => [.pbind (l.word 0)]
  | .pack => [.pack l.immByte]
  | .pcommit => [.pcommit]
  | .ubind => [.ubind (l.word 0) (l.word 1)]
  | .unpack => [.unpack]
  | .ufin => [.ufin]
  | .encode => [.encode (l.word 0) (l.word 1) (l.word 2)]
  | .decode => [.decode (l.word 0) (l.word 1) (l.word 2) (l.word 3)]
  | .decodeRaw => [.decodeRaw (l.word 0) (l.word 1) (l.word 2)]
  | .encw => [.setw l.immByte, .encode (l.word 0) (l.word 1) (l.word 2)]
  | .decw => [.setw l.immByte, .decode (l.word 0) (l.word 1) (l.word 2) (l.word 3)]

/-- Assemble a line: refuse it by name where R79 does, else the commands. -/
def AsmLine.assemble (l : AsmLine) : Except AsmError (List Instr) :=
  if !l.countOk then .error .wrongOperandCount
  else if !l.immOk then .error .immediateTooLarge
  else if !l.operandsOk then .error .operandTooLarge
  else .ok l.commands

end Sys2Proof
end

