-- ==== Sys2Proof/Safety.lean ====
section
/-! DEFINITION. The terms the statements use: the invariants of every reachable state (spec/10_state.md R34), what a run
is (70_reset_and_hazards.md R233), what counts as a run without errors (R230), and ranges of memory in the words of
20_memory.md R55 and R56. -/

namespace Sys2Proof.Machine

/-- The invariants of R34, item by item, with what the spec says beside it: every bound byte lies in `M` (R140: "every
later UNPACK reads inside it"), and the memory is one of MEM_SIZE bytes in canonical form (R50). -/
structure State.Inv (s : State) : Prop where
  /-- R34 item 1 -/
  width : legalWidth s.width = true
  /-- R34 item 1, R21 -/
  disp : s.disp = dispatch s.width
  /-- R34 item 2 -/
  pOff_mod : s.pOff.toNat % s.width = 0
  /-- R34 item 2 -/
  pOff_lt : s.pOff.toNat < 8
  /-- R34 item 3 -/
  pAcc_lt : s.pAcc.toNat < 2 ^ s.pOff.toNat
  /-- R34 item 4 -/
  uOff_mod : s.uOff.toNat % s.width = 0
  /-- R34 item 4 -/
  uOff_lt : s.uOff.toNat < 8
  /-- R34 item 5 -/
  uOff_fin : s.uRem = 0 → s.uOff = 0
  /-- R34 item 6 -/
  errs_lt : s.errs.toNat < 2 ^ 7
  /-- R140, R141: the bytes still to read lie in `M` -/
  bound : s.uRem = 0 ∨ s.uPtr.toNat + s.uRem.toNat ≤ s.mem.size
  /-- R50: the memory's size and canonical form -/
  mem_wf : s.mem.wf = true

/-- The width is legal and DISP is its row (R20, R21, R34 item 1): what a command's value rests on. -/
structure State.WidthOk (s : State) : Prop where
  width : legalWidth s.width = true
  disp : s.disp = dispatch s.width

/-- The invariants as a check that runs. -/
def State.invCheck (s : State) : Bool :=
  legalWidth s.width && decide (s.disp = dispatch s.width) &&
  (s.pOff.toNat % s.width == 0) && decide (s.pOff.toNat < 8) && decide (s.pAcc.toNat < 2 ^ s.pOff.toNat) &&
  (s.uOff.toNat % s.width == 0) && decide (s.uOff.toNat < 8) && (s.uRem != 0 || s.uOff == 0) &&
  s.mem.inRange s.uPtr.toNat s.uRem.toNat && s.mem.wf

/-- CODE of a response (R82). -/
def Response.code (r : Response) : BitVec 4 := r.resp.extractLsb' 0 4

/-- The OPC echo of a response (R82). -/
def Response.opc (r : Response) : Byte := r.resp.extractLsb' 8 8

/-- No response of the run so far reports an error (R230). -/
def State.ErrorFree (s : State) : Prop := ∀ r ∈ s.responses, r.code = 0

/-- The state a step or a command leaves, where it leaves one. -/
def nextState : Host.Outcome State Fault Refusal → Option State
  | .next s => some s
  | .fault _ => none
  | .refused _ => none

/-- The response of a command: the last one sent in the state it leaves (R70). -/
def answer (o : Host.Outcome State Fault Refusal) : Option Response :=
  match nextState o with
  | some t => t.responses.getLast?
  | none => none

/-- Commands executed one after the other, each to completion (R61). -/
def runCommands : List Instr → State → Option State
  | [], s => some s
  | i :: is, s =>
    match nextState (exec i s) with
    | some t => runCommands is t
    | none => none

/-- The states a run can reach (R233): power-on with some values of the open parameters, then steps, the host sending or
doing more in between. -/
inductive Reachable : State → Prop where
  | powerOn (size : Nat) (init : Word → Byte) (impl : InvImpl) (h1 : 1 ≤ size) (h2 : size ≤ 2 ^ 32) :
      Reachable (State.powerOn size init impl)
  | host (s : State) (es : List HostEvent) : Reachable s → Reachable (s.setInput (s.input ++ es))
  | step (s t : State) : Reachable s → Machine.step s = .next t → Reachable t

/-- The n bytes at `a` lie in `M`: no byte, or none past its end (R55). -/
abbrev Memory.Holds (m : Memory) (a n : Nat) : Prop := n = 0 ∨ a + n ≤ m.size

/-- The n bytes at `a` and the k bytes at `b` have no byte in common (R56). -/
abbrev Apart (a n b k : Nat) : Prop := n = 0 ∨ k = 0 ∨ a + n ≤ b ∨ b + k ≤ a

/-- A command word that R76 calls illegal, in its three items. -/
abbrev IllegalWord (cw : Word) : Prop :=
  cw.extractLsb' 0 8 ∉ [0x00#8, 0x01#8, 0x02#8, 0x03#8, 0x04#8, 0x05#8, 0x06#8, 0x10#8, 0x11#8, 0x20#8, 0x21#8, 0x22#8,
      0x30#8, 0x31#8, 0x32#8, 0x40#8, 0x41#8, 0x42#8] ∨
    cw.extractLsb' 16 16 ≠ 0#16 ∨
    (cw.extractLsb' 0 8 ∉ [0x01#8, 0x10#8, 0x11#8, 0x21#8] ∧ cw.extractLsb' 8 8 ≠ 0#8)

/-- The number of operand words that R75 gives an opcode. -/
def packetOperands (opc : Byte) : Nat :=
  if opc = 0x20#8 then 1
  else if opc = 0x30#8 then 2
  else if opc = 0x40#8 ∨ opc = 0x42#8 then 3
  else if opc = 0x41#8 then 4
  else 0

end Sys2Proof.Machine

namespace Sys2Proof

/-- A command of the codec (R180). -/
def Instr.isCodec : Instr → Bool
  | .encode _ _ _ | .decode _ _ _ _ | .decodeRaw _ _ _ => true
  | .nop | .setw _ | .clrerr | .stat | .rdpp | .rdup | .rdur | .qfwd _ | .qinv _ | .pbind _ | .pack _ | .pcommit
  | .ubind _ _ | .unpack | .ufin => false

/-- A command of the streaming packer (R120 to R122). -/
def Instr.isPacker : Instr → Bool
  | .pbind _ | .pack _ | .pcommit => true
  | .nop | .setw _ | .clrerr | .stat | .rdpp | .rdup | .rdur | .qfwd _ | .qinv _ | .ubind _ _ | .unpack | .ufin
  | .encode _ _ _ | .decode _ _ _ _ | .decodeRaw _ _ _ => false

/-- A command of the streaming unpacker (R140 to R142). -/
def Instr.isUnpacker : Instr → Bool
  | .ubind _ _ | .unpack | .ufin => true
  | .nop | .setw _ | .clrerr | .stat | .rdpp | .rdup | .rdur | .qfwd _ | .qinv _ | .pbind _ | .pack _ | .pcommit
  | .encode _ _ _ | .decode _ _ _ _ | .decodeRaw _ _ _ => false

/-- The codes of the errors that R200 and R206 let a command raise. -/
def Instr.mayRaise : Instr → List (BitVec 4)
  | .setw _ => [1]
  | .unpack => [2]
  | .pack _ | .pcommit | .ubind _ _ => [4]
  | .encode _ _ _ | .decodeRaw _ _ _ => [4, 5]
  | .decode _ _ _ _ => [4, 5, 6]
  | .qinv _ => [7]
  | .nop | .clrerr | .stat | .rdpp | .rdup | .rdur | .qfwd _ | .pbind _ | .ufin => []

end Sys2Proof
end

