-- ==== Sys2Proof/Certificates/Slice0/Obligations.lean ====
section
/-! DEFINITION. The statements about the BPQ core, in the order of spec/: reset and invariants, encoding, the commands
family by family, errors, and the laws of whole runs. -/

open Sys2Proof Sys2Proof.Machine

/-! ### Reset and invariants -/

/-- R220. At power-on every register holds the value of the table, `M` holds MEM_INIT and the status word is 0x00001008;
a later reset gives the registers the same values and leaves `M` unchanged. -/
def Obligations.ResetGivesTheStatedValues : Prop :=
  (State.reset.w = 8#4 ∧ State.reset.disp = ⟨0xFF#8, 0, 1, 1⟩ ∧ State.reset.pAcc = 0x00#8 ∧ State.reset.pOff = 0#4 ∧
    State.reset.pPtr = 0x00000000#32 ∧ State.reset.uPtr = 0x00000000#32 ∧ State.reset.uRem = 0x00000000#32 ∧
    State.reset.uOff = 0#4 ∧ State.reset.errs = 0b0000000#7 ∧
    (∀ a : Nat, a < Config.memSize → State.reset.mem.read a = Config.memInit (BitVec.ofNat 32 a)) ∧
    State.reset.statusWord = 0x00001008#32) ∧
  ∀ (s : State) (rest : List HostEvent), s.input = .reset :: rest →
    ∃ t : State, step s = .next t ∧ t.w = 8#4 ∧ t.disp = ⟨0xFF#8, 0, 1, 1⟩ ∧ t.pAcc = 0x00#8 ∧ t.pOff = 0#4 ∧
      t.pPtr = 0x00000000#32 ∧ t.uPtr = 0x00000000#32 ∧ t.uRem = 0x00000000#32 ∧ t.uOff = 0#4 ∧
      t.errs = 0b0000000#7 ∧ t.mem = s.mem ∧ t.statusWord = 0x00001008#32

/-- The model's choice (log 12): a later reset keeps the responses already sent and what the host has still to send, and
the parameters of the implementation. -/
def Obligations.LaterResetKeepsThePorts : Prop :=
  ∀ (s : State) (rest : List HostEvent), s.input = .reset :: rest →
    ∃ t : State, step s = .next t ∧ t.input = rest ∧ t.responses = s.responses ∧ t.invImpl = s.invImpl

/-- R34, first part: the invariants hold after reset. That the memory is in canonical form is the model's own clause
(log 2). -/
def Obligations.ResetSatisfiesTheInvariants : Prop := State.reset.Inv

/-- R34, second part: every step, whatever it takes from the host, keeps the invariants, from every state that meets
them. -/
def Obligations.StepKeepsTheInvariants : Prop :=
  ∀ s t : State, s.Inv → step s = .next t → t.Inv

/-- R34: the six invariants hold in every state that a run reaches, for every value of the open parameters. -/
def Obligations.ReachableStatesMeetTheInvariants : Prop :=
  ∀ s : State, Reachable s →
    (s.w = 1#4 ∨ s.w = 2#4 ∨ s.w = 4#4 ∨ s.w = 8#4) ∧ s.disp = dispatch s.width ∧
    s.pOff.toNat % s.w.toNat = 0 ∧ s.pOff.toNat < 8 ∧
    s.pAcc.toNat < 2 ^ s.pOff.toNat ∧
    s.uOff.toNat % s.w.toNat = 0 ∧ s.uOff.toNat < 8 ∧
    (s.uRem = 0 → s.uOff = 0) ∧
    s.errs.toNat < 2 ^ 7

/-- R141 ("`M`'s size does not change") and R6: no step changes an open parameter, MEM_SIZE or INV_IMPL. -/
def Obligations.StepKeepsTheParameters : Prop :=
  ∀ s t : State, step s = .next t → t.mem.size = s.mem.size ∧ t.invImpl = s.invImpl

/-! ### Encoding -/

/-- R71, R74, R75: the decoder reads back every command that the encoder writes, with every value of every operand, and
leaves the words after it. -/
def Obligations.DecodeReadsBackEveryEncodedCommand : Prop :=
  ∀ (i : Instr) (rest : List Word), decode (encode i ++ rest) = .ok (i, rest)

/-- R76, R77: a command has one packet: whatever decodes to it is its encoding. -/
def Obligations.EncodingIsTheOnlyPacketOfACommand : Prop :=
  ∀ (ws rest : List Word) (i : Instr), decode ws = .ok (i, rest) → ws = encode i ++ rest

/-- R81 and the examples of 40_control.md to 44_codec.md: words written out from the encoding of R71 and R74. -/
def Obligations.WordsOfTheSpecDecodeToTheirCommands : Prop :=
  decode [0x00000C21#32] = .ok (.pack 12#8, []) ∧ encode (.pack 12#8) = [0x00000C21#32] ∧
  decode [0x00000040#32, 0x00000000#32, 0x00000020#32, 0x00000008#32] = .ok (.encode 0#32 0x20#32 8#32, []) ∧
  encode (.encode 0#32 0x20#32 8#32) = [0x00000040#32, 0x00000000#32, 0x00000020#32, 0x00000008#32] ∧
  decode [0x00000401#32] = .ok (.setw 4#8, []) ∧
  decode [0x0000C810#32] = .ok (.qfwd 200#8, []) ∧
  decode [0x00000030#32, 0x00000100#32, 0x00000001#32] = .ok (.ubind 0x100#32 1#32, [])

/-- R75: the number of operand words for every opcode, assigned or not; and the block takes the command word and exactly
that many operand words as one packet, whether or not the command word is legal. -/
def Obligations.PacketLengthFollowsFromTheOpcodeAlone : Prop :=
  (∀ opc : Byte, operandCount opc = packetOperands opc) ∧
  ∀ (cw : Word) (ops : List Word) (rest : List HostEvent), ops.length = packetOperands (cw.extractLsb' 0 8) →
    nextPending ((cw :: ops).map .word ++ rest) = .packet cw ops rest

/-- R76, R77: a whole packet is a command exactly when its command word is not one of the illegal words. -/
def Obligations.PacketIsACommandExactlyWhenLegal : Prop :=
  ∀ (cw : Word) (ops : List Word), ops.length = packetOperands (cw.extractLsb' 0 8) →
    ((∃ i, decode (cw :: ops) = .ok (i, [])) ↔ ¬ IllegalWord cw)

/-- R76, R84: an illegal command word raises IllegalCommand: its packet is taken, ERRS bit 2 is set, the response echoes
CW[7:0], and nothing else changes. -/
def Obligations.IllegalWordRaisesIllegalCommand : Prop :=
  ∀ (s : State) (cw : Word) (ops : List Word) (rest : List HostEvent), IllegalWord cw →
    ops.length = packetOperands (cw.extractLsb' 0 8) → s.input = (cw :: ops).map .word ++ rest →
    step s = .next { s with
      input := rest, errs := s.errs ||| 0b0000100#7,
      responses := s.responses ++ [⟨3#32 ||| ((cw.extractLsb' 0 8).setWidth 32 <<< 8), 0#32⟩] }

/-- A step runs the decoded command: where a packet stands first on the command port and decodes to a command, the step
is that command's execution at the state whose port has lost the packet (R61, R70, R75). -/
def Obligations.StepRunsTheDecodedCommand : Prop :=
  (∀ (s : State) (cw : Word) (ops : List Word) (rest : List HostEvent) (i : Instr),
    ops.length = packetOperands (cw.extractLsb' 0 8) → s.input = (cw :: ops).map .word ++ rest →
    decode (cw :: ops) = .ok (i, []) → step s = exec i { s with input := rest }) ∧
  ∀ (s : State) (i : Instr) (rest : List HostEvent), s.input = (encode i).map .word ++ rest →
    step s = exec i { s with input := rest }

/-- R80: ENCW and DECW are SETW and then ENCODE or DECODE; and where the SETW raises InvalidWidth, the second command
still executes, with the old width. -/
def Obligations.PseudoCommandsExpandToTwoCommands : Prop :=
  (∀ (n : Byte) (src dst L : Word),
    AsmLine.assemble ⟨.encw, [n.toNat, src.toNat, dst.toNat, L.toNat]⟩ = .ok [.setw n, .encode src dst L]) ∧
  (∀ (n : Byte) (src len dst count : Word),
    AsmLine.assemble ⟨.decw, [n.toNat, src.toNat, len.toNat, dst.toNat, count.toNat]⟩ =
      .ok [.setw n, .decode src len dst count]) ∧
  ∀ (s : State) (n : Byte) (i : Instr), n ∉ [1#8, 2#8, 4#8, 8#8] →
    runCommands [.setw n, i] s =
      nextState (exec i { s with errs := s.errs ||| 1#7, responses := s.responses ++ [⟨0x00000101#32, 0#32⟩] })

/-- R79, last sentence: an assembler refuses, by name, an immediate above 255 and, where the immediate is in range, an
operand above 2^32 - 1. -/
def Obligations.AssemblerRefusesNumbersTooLarge : Prop :=
  (∀ (m : Mnemonic) (v : Nat) (vs : List Nat), m.hasImm = true → vs.length = m.operandWords → 255 < v →
    AsmLine.assemble ⟨m, v :: vs⟩ = .error .immediateTooLarge) ∧
  ∀ (l : AsmLine), l.countOk = true → l.immOk = true → (∃ v ∈ l.operands, 2 ^ 32 - 1 < v) →
    l.assemble = .error .operandTooLarge

/-- D30: words sent over a byte-wide link, the least significant byte first, come out as they were. -/
def Obligations.LinkBytesCarryTheWords : Prop :=
  (∀ w : Word, linkBytes w =
    [BitVec.ofNat 8 w.toNat, BitVec.ofNat 8 (w.toNat / 2 ^ 8), BitVec.ofNat 8 (w.toNat / 2 ^ 16),
      BitVec.ofNat 8 (w.toNat / 2 ^ 24)]) ∧
  ∀ ws : List Word, wordsOfLink (ws.flatMap linkBytes) = ws

/-! ### Control commands -/

/-- R100: NOP answers 0 and changes nothing. -/
def Obligations.NopOnlyResponds : Prop :=
  ∀ s : State, exec .nop s = .next { s with responses := s.responses ++ [⟨0x00000000#32, 0#32⟩] }

/-- R101, R22: SETW with a legal width loads W and its row of the dispatch table and starts a new packer and unpacker;
with any other it raises InvalidWidth and changes nothing but ERRS bit 0. -/
def Obligations.SetwSelectsALegalWidthOrRefuses : Prop :=
  (∀ s : State, ∀ p ∈ [(1#8, (⟨0x01#8, 7, 255, 8⟩ : Disp)), (2#8, ⟨0x03#8, 6, 85, 4⟩), (4#8, ⟨0x0F#8, 4, 17, 2⟩),
      (8#8, ⟨0xFF#8, 0, 1, 1⟩)],
    exec (.setw p.1) s = .next { s with
      w := p.1.setWidth 4, disp := p.2, pAcc := 0#8, pOff := 0#4, uRem := 0#32, uOff := 0#4,
      responses := s.responses ++ [⟨0x00000100#32, 0#32⟩] }) ∧
  ∀ (s : State) (imm : Byte), imm ∉ [1#8, 2#8, 4#8, 8#8] →
    exec (.setw imm) s = .next { s with
      errs := s.errs ||| 0b0000001#7, responses := s.responses ++ [⟨0x00000101#32, 0#32⟩] }

/-- R102: CLRERR clears all seven bits at once and nothing else. -/
def Obligations.ClrerrClearsEveryErrorBit : Prop :=
  ∀ s : State, exec .clrerr s = .next { s with
    errs := 0b0000000#7, responses := s.responses ++ [⟨0x00000200#32, 0#32⟩] }

/-- R103, R30: STAT answers the status word, field by field as R30 lays it out, and changes nothing. -/
def Obligations.StatAnswersTheStatusWord : Prop :=
  ∀ s : State, ∃ v : Word,
    exec .stat s = .next { s with responses := s.responses ++ [⟨0x00000300#32, v⟩] } ∧
    v.extractLsb' 0 4 = s.w ∧ v.extractLsb' 4 4 = s.pOff ∧ v.extractLsb' 8 4 = s.uOff ∧
    v.extractLsb' 12 1 = (if s.uRem = 0 then 1#1 else 0#1) ∧ v.extractLsb' 13 3 = 0#3 ∧
    v.extractLsb' 16 8 = s.pAcc ∧ v.extractLsb' 24 7 = s.errs ∧ v.extractLsb' 31 1 = 0#1

/-- R104, R105, R106: RDPP, RDUP and RDUR answer P_PTR, U_PTR and U_REM and change nothing. -/
def Obligations.ReadbacksAnswerTheirRegister : Prop :=
  ∀ s : State,
    exec .rdpp s = .next { s with responses := s.responses ++ [⟨0x00000400#32, s.pPtr⟩] } ∧
    exec .rdup s = .next { s with responses := s.responses ++ [⟨0x00000500#32, s.uPtr⟩] } ∧
    exec .rdur s = .next { s with responses := s.responses ++ [⟨0x00000600#32, s.uRem⟩] }

/-! ### Quantizer -/

/-- R160: QFWD answers the sample shifted right by 8 - N and changes nothing. -/
def Obligations.QfwdKeepsTheTopBits : Prop :=
  ∀ (s : State) (sample : Byte), s.WidthOk →
    exec (.qfwd sample) s = .next { s with
      responses := s.responses ++ [⟨0x00001000#32, BitVec.ofNat 32 (sample.toNat / 2 ^ (8 - s.w.toNat))⟩] }

/-- R161: QINV of a code in [0, 2^N - 1] answers the code times 255 div (2^N - 1), whichever way the inverse is built;
of any other it raises CodeRange and changes nothing but ERRS bit 6. -/
def Obligations.QinvScalesACodeOrRefuses : Prop :=
  ∀ (s : State) (code : Byte), s.WidthOk →
    exec (.qinv code) s = .next
      (if code.toNat ≤ 2 ^ s.w.toNat - 1 then { s with
        responses := s.responses ++ [⟨0x00001100#32, BitVec.ofNat 32 (code.toNat * (255 / (2 ^ s.w.toNat - 1)))⟩] }
      else { s with
        errs := s.errs ||| 0b1000000#7, responses := s.responses ++ [⟨0x00001107#32, 0#32⟩] })

/-- R162: with N = 8 both directions are the identity. -/
def Obligations.WidthEightIsLossless : Prop :=
  ∀ (s : State) (b : Byte), s.WidthOk → s.w = 8#4 →
    answer (exec (.qfwd b) s) = some ⟨0x00001000#32, b.setWidth 32⟩ ∧
    answer (exec (.qinv b) s) = some ⟨0x00001100#32, b.setWidth 32⟩

/-- R163: an implementation with the lookup table and one with the multiplier cannot be told apart by any command: they
leave the same state and send the same response. -/
def Obligations.LutAndScalingAgree : Prop :=
  ∀ (s : State) (i : Instr), s.WidthOk →
    nextState (exec i { s with invImpl := .scale }) =
      (nextState (exec i { s with invImpl := .lut })).map fun t => { t with invImpl := .scale }

/-- R164: both quantizers are monotone. -/
def Obligations.QuantizersAreMonotone : Prop :=
  ∀ (s : State) (a b : Byte), s.WidthOk → a.toNat ≤ b.toNat →
    (∃ u v : Word, answer (exec (.qfwd a) s) = some ⟨0x00001000#32, u⟩ ∧
      answer (exec (.qfwd b) s) = some ⟨0x00001000#32, v⟩ ∧ u.toNat ≤ v.toNat) ∧
    (b.toNat ≤ 2 ^ s.w.toNat - 1 →
      ∃ u v : Word, answer (exec (.qinv a) s) = some ⟨0x00001100#32, u⟩ ∧
        answer (exec (.qinv b) s) = some ⟨0x00001100#32, v⟩ ∧ u.toNat ≤ v.toNat)

/-- R165: the largest code of every width reconstructs to exactly 255. -/
def Obligations.LargestCodeReconstructsTo255 : Prop :=
  ∀ s : State, s.WidthOk →
    answer (exec (.qinv (BitVec.ofNat 8 (2 ^ s.w.toNat - 1))) s) = some ⟨0x00001100#32, 255#32⟩

/-- R166: quantizing a sample and reconstructing it is off by at most 2^(8-N) - 1. -/
def Obligations.ReconstructionErrorIsBounded : Prop :=
  ∀ (s : State) (sample : Byte), s.WidthOk →
    ∃ c v : Word, answer (exec (.qfwd sample) s) = some ⟨0x00001000#32, c⟩ ∧
      answer (exec (.qinv (c.setWidth 8)) s) = some ⟨0x00001100#32, v⟩ ∧
      v.toNat ≤ sample.toNat + (2 ^ (8 - s.w.toNat) - 1) ∧ sample.toNat ≤ v.toNat + (2 ^ (8 - s.w.toNat) - 1)

/-- R167, on codes: reconstructing a code and quantizing the result gives the code back. -/
def Obligations.QuantizingAReconstructedCodeGivesItBack : Prop :=
  ∀ (s : State) (code : Byte), s.WidthOk → code.toNat ≤ 2 ^ s.w.toNat - 1 →
    ∃ v : Word, answer (exec (.qinv code) s) = some ⟨0x00001100#32, v⟩ ∧
      answer (exec (.qfwd (v.setWidth 8)) s) = some ⟨0x00001000#32, code.setWidth 32⟩

/-! ### Packer -/

/-- R120: PBIND sets P_PTR, empties the accumulator, checks nothing and writes nothing. -/
def Obligations.PbindStartsASession : Prop :=
  ∀ (s : State) (dst : Word), exec (.pbind dst) s = .next { s with
    pPtr := dst, pAcc := 0#8, pOff := 0#4, responses := s.responses ++ [⟨0x00002000#32, 0#32⟩] }

/-- R121: PACK puts the low N bits of its code in at P_OFF (the `|` is a `+`). A byte that stays partial waits in P_ACC;
a full one is written to M[P_PTR], which advances modulo 2^32; and where P_PTR is outside `M` it raises BusError and
nothing but ERRS bit 3 changes. -/
def Obligations.PackAddsOneCode : Prop :=
  ∀ (s : State) (code : Byte), s.Inv →
    (s.pOff.toNat + s.w.toNat ≠ 8 → exec (.pack code) s = .next { s with
      pAcc := BitVec.ofNat 8 (s.pAcc.toNat + (code.toNat % 2 ^ s.w.toNat) * 2 ^ s.pOff.toNat),
      pOff := BitVec.ofNat 4 (s.pOff.toNat + s.w.toNat),
      responses := s.responses ++ [⟨0x00002100#32, 0#32⟩] }) ∧
    (s.pOff.toNat + s.w.toNat = 8 → s.pPtr.toNat < s.mem.size →
      ∃ m : Memory, exec (.pack code) s = .next { s with
          mem := m, pAcc := 0#8, pOff := 0#4, pPtr := BitVec.ofNat 32 (s.pPtr.toNat + 1),
          responses := s.responses ++ [⟨0x00002100#32, 1#32⟩] } ∧
        m.size = s.mem.size ∧
        (m.read s.pPtr.toNat).toNat = s.pAcc.toNat + (code.toNat % 2 ^ s.w.toNat) * 2 ^ s.pOff.toNat ∧
        ∀ a : Nat, a ≠ s.pPtr.toNat → m.read a = s.mem.read a) ∧
    (s.pOff.toNat + s.w.toNat = 8 → s.mem.size ≤ s.pPtr.toNat →
      exec (.pack code) s = .next { s with
        errs := s.errs ||| 0b0001000#7, responses := s.responses ++ [⟨0x00002104#32, 0#32⟩] })

/-- R122: PCOMMIT writes a partial byte to M[P_PTR] as it is and advances P_PTR; with none it changes nothing; and where
P_PTR is outside `M` a partial byte raises BusError and nothing but ERRS bit 3 changes. -/
def Obligations.PcommitFlushesThePartialByte : Prop :=
  ∀ s : State, s.mem.wf = true →
    (s.pOff = 0 → exec .pcommit s = .next { s with responses := s.responses ++ [⟨0x00002200#32, 0#32⟩] }) ∧
    (s.pOff ≠ 0 → s.pPtr.toNat < s.mem.size →
      ∃ m : Memory, exec .pcommit s = .next { s with
          mem := m, pAcc := 0#8, pOff := 0#4, pPtr := BitVec.ofNat 32 (s.pPtr.toNat + 1),
          responses := s.responses ++ [⟨0x00002200#32, 1#32⟩] } ∧
        m.size = s.mem.size ∧ m.read s.pPtr.toNat = s.pAcc ∧
        ∀ a : Nat, a ≠ s.pPtr.toNat → m.read a = s.mem.read a) ∧
    (s.pOff ≠ 0 → s.mem.size ≤ s.pPtr.toNat → exec .pcommit s = .next { s with
      errs := s.errs ||| 0b0001000#7, responses := s.responses ++ [⟨0x00002204#32, 0#32⟩] })

/-- R123, R124: a whole packing session writes ceil(L * N / 8) bytes from `d` on, modulo 2^32, and leaves P_PTR past
them; code j lies at its place, every bit above the last code is 0, and no other byte changes. "Without error" is here
that every byte of the output is one of `M`; a session of more than 2^32 bytes, which would write a byte twice, is left
out. -/
def Obligations.PackingSessionWritesTheCodes : Prop :=
  ∀ (s : State) (d : Word) (codes : List Byte), s.Inv → ceilDiv (codes.length * s.w.toNat) 8 ≤ 2 ^ 32 →
    (∀ k : Nat, k < ceilDiv (codes.length * s.w.toNat) 8 → (d.toNat + k) % 2 ^ 32 < s.mem.size) →
    ∃ t : State, runCommands (.pbind d :: codes.map .pack ++ [.pcommit]) s = some t ∧
      (∃ rs : List Response, t.responses = s.responses ++ rs ∧ ∀ r ∈ rs, r.code = 0) ∧
      t.pPtr = BitVec.ofNat 32 (d.toNat + ceilDiv (codes.length * s.w.toNat) 8) ∧ t.pOff = 0 ∧ t.pAcc = 0 ∧
      (∀ j : Nat, (hj : j < codes.length) →
        (t.mem.read ((d.toNat + j / (8 / s.w.toNat)) % 2 ^ 32)).toNat / 2 ^ (j % (8 / s.w.toNat) * s.w.toNat) %
          2 ^ s.w.toNat = codes[j].toNat % 2 ^ s.w.toNat) ∧
      (∀ j : Nat, codes.length ≤ j → j < ceilDiv (codes.length * s.w.toNat) 8 * (8 / s.w.toNat) →
        (t.mem.read ((d.toNat + j / (8 / s.w.toNat)) % 2 ^ 32)).toNat / 2 ^ (j % (8 / s.w.toNat) * s.w.toNat) %
          2 ^ s.w.toNat = 0) ∧
      ∀ a : Nat, (∀ k : Nat, k < ceilDiv (codes.length * s.w.toNat) 8 → a ≠ (d.toNat + k) % 2 ^ 32) →
        t.mem.read a = s.mem.read a

/-! ### Unpacker -/

/-- R140: UBIND binds a range that lies in `M`, an empty one at any address; any other raises BusError and nothing but
ERRS bit 3 changes. -/
def Obligations.UbindBindsARangeOfMemory : Prop :=
  ∀ (s : State) (src len : Word),
    exec (.ubind src len) s = .next
      (if len = 0 ∨ src.toNat + len.toNat ≤ s.mem.size then { s with
        uPtr := src, uRem := len, uOff := 0#4, responses := s.responses ++ [⟨0x00003000#32, 0#32⟩] }
      else { s with
        errs := s.errs ||| 0b0001000#7, responses := s.responses ++ [⟨0x00003004#32, 0#32⟩] })

/-- R141: UNPACK answers the N bits at U_OFF of the byte at U_PTR and moves on, to the next byte where this one is used
up; with U_REM = 0 it raises BufferUnderrun and nothing but ERRS bit 1 changes. -/
def Obligations.UnpackTakesTheNextCode : Prop :=
  ∀ s : State, s.Inv →
    (s.uRem = 0 → exec .unpack s = .next { s with
      errs := s.errs ||| 0b0000010#7, responses := s.responses ++ [⟨0x00003102#32, 0#32⟩] }) ∧
    (s.uRem ≠ 0 → s.uOff.toNat + s.w.toNat ≠ 8 → exec .unpack s = .next { s with
      uOff := BitVec.ofNat 4 (s.uOff.toNat + s.w.toNat),
      responses := s.responses ++
        [⟨0x00003100#32, BitVec.ofNat 32 ((s.mem.read s.uPtr.toNat).toNat / 2 ^ s.uOff.toNat % 2 ^ s.w.toNat)⟩] }) ∧
    (s.uRem ≠ 0 → s.uOff.toNat + s.w.toNat = 8 → exec .unpack s = .next { s with
      uOff := 0#4, uPtr := BitVec.ofNat 32 (s.uPtr.toNat + 1), uRem := BitVec.ofNat 32 (s.uRem.toNat - 1),
      responses := s.responses ++
        [⟨0x00003100#32, BitVec.ofNat 32 ((s.mem.read s.uPtr.toNat).toNat / 2 ^ s.uOff.toNat % 2 ^ s.w.toNat)⟩] })

/-- R142: UFIN answers 1 when U_REM = 0, else 0, and changes nothing; it answers 1 after reset, after SETW and after an
empty UBIND; and it answers 0 exactly when the next UNPACK will succeed. -/
def Obligations.UfinTellsWhetherUnpackWillSucceed : Prop :=
  (∀ s : State, exec .ufin s = .next { s with
    responses := s.responses ++ [⟨0x00003200#32, if s.uRem = 0 then 1#32 else 0#32⟩] }) ∧
  answer (exec .ufin State.reset) = some ⟨0x00003200#32, 1#32⟩ ∧
  (∀ s : State, ∀ n ∈ [1#8, 2#8, 4#8, 8#8], ∃ t, runCommands [.setw n, .ufin] s = some t ∧
    t.responses.getLast? = some ⟨0x00003200#32, 1#32⟩) ∧
  (∀ (s : State) (a : Word), ∃ t, runCommands [.ubind a 0, .ufin] s = some t ∧
    t.responses.getLast? = some ⟨0x00003200#32, 1#32⟩) ∧
  ∀ s : State, s.Inv →
    (answer (exec .ufin s) = some ⟨0x00003200#32, 0#32⟩ ↔
      ∃ v : Word, answer (exec .unpack s) = some ⟨0x00003100#32, v⟩)

/-- R143, R144: after UBIND of `len` bytes, exactly len * CPB UNPACKs succeed, the k-th answering code k of the buffer,
padding like any other; then the buffer is finished and the next UNPACK raises BufferUnderrun. `M` is not changed. -/
def Obligations.UnpackingSessionReadsEveryCode : Prop :=
  ∀ (s : State) (a len : Word), s.Inv → s.mem.Holds a.toNat len.toNat →
    (∀ k : Nat, k < len.toNat * (8 / s.w.toNat) →
      ∃ t : State, runCommands (.ubind a len :: List.replicate k .unpack) s = some t ∧ t.mem = s.mem ∧
        answer (exec .ufin t) = some ⟨0x00003200#32, 0#32⟩ ∧
        answer (exec .unpack t) = some ⟨0x00003100#32, BitVec.ofNat 32
          ((s.mem.read (a.toNat + k / (8 / s.w.toNat))).toNat / 2 ^ (k % (8 / s.w.toNat) * s.w.toNat) %
            2 ^ s.w.toNat)⟩) ∧
    ∃ t : State, runCommands (.ubind a len :: List.replicate (len.toNat * (8 / s.w.toNat)) .unpack) s = some t ∧
      t.mem = s.mem ∧ answer (exec .ufin t) = some ⟨0x00003200#32, 1#32⟩ ∧
      answer (exec .unpack t) = some ⟨0x00003102#32, 0#32⟩

/-- R143, R144, last sentences: a buffer packed by PACK and PCOMMIT and unpacked at the same width gives the codes back
in order, then zeros for the padding. -/
def Obligations.PackedCodesUnpackInOrder : Prop :=
  ∀ (s : State) (d : Word) (codes : List Byte), s.Inv → ceilDiv (codes.length * s.w.toNat) 8 < 2 ^ 32 →
    s.mem.Holds d.toNat (ceilDiv (codes.length * s.w.toNat) 8) →
    ∀ k : Nat, k < ceilDiv (codes.length * s.w.toNat) 8 * (8 / s.w.toNat) →
      ∃ t : State, runCommands (.pbind d :: codes.map .pack ++ [.pcommit] ++
          .ubind d (BitVec.ofNat 32 (ceilDiv (codes.length * s.w.toNat) 8)) :: List.replicate k .unpack) s = some t ∧
        answer (exec .unpack t) =
          some ⟨0x00003100#32, BitVec.ofNat 32 ((codes.getD k 0).toNat % 2 ^ s.w.toNat)⟩

/-! ### Codec -/

/-- R182, R185: ENCODE of ranges that pass the checks writes ceil(L * N / 8) bytes at `dst` and no other: code j, the
top N bits of sample j, lies at its place, and every bit above the last code is 0. No register changes. -/
def Obligations.EncodePacksTheQuantizedSamples : Prop :=
  ∀ (s : State) (src dst L : Word), s.Inv → s.mem.Holds src.toNat L.toNat →
    s.mem.Holds dst.toNat (ceilDiv (L.toNat * s.w.toNat) 8) →
    Apart src.toNat L.toNat dst.toNat (ceilDiv (L.toNat * s.w.toNat) 8) →
    ∃ m : Memory, exec (.encode src dst L) s = .next { s with
        mem := m,
        responses := s.responses ++ [⟨0x00004000#32, BitVec.ofNat 32 (ceilDiv (L.toNat * s.w.toNat) 8)⟩] } ∧
      m.size = s.mem.size ∧
      (∀ j : Nat, j < L.toNat →
        (m.read (dst.toNat + j / (8 / s.w.toNat))).toNat / 2 ^ (j % (8 / s.w.toNat) * s.w.toNat) % 2 ^ s.w.toNat =
          (s.mem.read (src.toNat + j)).toNat / 2 ^ (8 - s.w.toNat)) ∧
      (∀ j : Nat, L.toNat ≤ j → j < ceilDiv (L.toNat * s.w.toNat) 8 * (8 / s.w.toNat) →
        (m.read (dst.toNat + j / (8 / s.w.toNat))).toNat / 2 ^ (j % (8 / s.w.toNat) * s.w.toNat) % 2 ^ s.w.toNat =
          0) ∧
      ∀ a : Nat, a < dst.toNat ∨ dst.toNat + ceilDiv (L.toNat * s.w.toNat) 8 ≤ a → m.read a = s.mem.read a

/-- R183: DECODE of ranges that pass the checks, `count` being at most the codes the source holds, writes `count`
samples at `dst` and no other byte: sample j is code j times 255 div (2^N - 1). No register changes. -/
def Obligations.DecodeWritesTheReconstructedSamples : Prop :=
  ∀ (s : State) (src len dst count : Word), s.Inv → s.mem.Holds src.toNat len.toNat →
    s.mem.Holds dst.toNat count.toNat → Apart src.toNat len.toNat dst.toNat count.toNat →
    count.toNat ≤ len.toNat * (8 / s.w.toNat) →
    ∃ m : Memory, exec (.decode src len dst count) s = .next { s with
        mem := m, responses := s.responses ++ [⟨0x00004100#32, count⟩] } ∧
      m.size = s.mem.size ∧
      (∀ j : Nat, j < count.toNat → (m.read (dst.toNat + j)).toNat =
        (s.mem.read (src.toNat + j / (8 / s.w.toNat))).toNat / 2 ^ (j % (8 / s.w.toNat) * s.w.toNat) %
          2 ^ s.w.toNat * (255 / (2 ^ s.w.toNat - 1))) ∧
      ∀ a : Nat, a < dst.toNat ∨ dst.toNat + count.toNat ≤ a → m.read a = s.mem.read a

/-- R184: DECODE_RAW of ranges that pass the checks writes every code of the buffer as a sample, padding included, and
answers how many. No register changes. -/
def Obligations.DecodeRawWritesEverySample : Prop :=
  ∀ (s : State) (src len dst : Word), s.Inv → s.mem.Holds src.toNat len.toNat →
    s.mem.Holds dst.toNat (len.toNat * (8 / s.w.toNat)) →
    Apart src.toNat len.toNat dst.toNat (len.toNat * (8 / s.w.toNat)) →
    ∃ (m : Memory) (v : Word), exec (.decodeRaw src len dst) s = .next { s with
        mem := m, responses := s.responses ++ [⟨0x00004200#32, v⟩] } ∧
      v.toNat = len.toNat * (8 / s.w.toNat) ∧ m.size = s.mem.size ∧
      (∀ j : Nat, j < len.toNat * (8 / s.w.toNat) → (m.read (dst.toNat + j)).toNat =
        (s.mem.read (src.toNat + j / (8 / s.w.toNat))).toNat / 2 ^ (j % (8 / s.w.toNat) * s.w.toNat) %
          2 ^ s.w.toNat * (255 / (2 ^ s.w.toNat - 1))) ∧
      ∀ a : Nat, a < dst.toNat ∨ dst.toNat + len.toNat * (8 / s.w.toNat) ≤ a → m.read a = s.mem.read a

/-- R181: the checks of the codec commands, in their order, the first that fails deciding the error, with nothing but
ERRS changed: ranges, overlap, and for DECODE the count. -/
def Obligations.CodecChecksComeInOrder : Prop :=
  ∀ (s : State) (src len dst count : Word), s.WidthOk →
    (¬ (s.mem.Holds src.toNat count.toNat ∧ s.mem.Holds dst.toNat (ceilDiv (count.toNat * s.w.toNat) 8)) →
      exec (.encode src dst count) s = .next { s with
        errs := s.errs ||| 0b0001000#7, responses := s.responses ++ [⟨0x00004004#32, 0#32⟩] }) ∧
    (s.mem.Holds src.toNat count.toNat → s.mem.Holds dst.toNat (ceilDiv (count.toNat * s.w.toNat) 8) →
      ¬ Apart src.toNat count.toNat dst.toNat (ceilDiv (count.toNat * s.w.toNat) 8) →
      exec (.encode src dst count) s = .next { s with
        errs := s.errs ||| 0b0010000#7, responses := s.responses ++ [⟨0x00004005#32, 0#32⟩] }) ∧
    (¬ (s.mem.Holds src.toNat len.toNat ∧ s.mem.Holds dst.toNat count.toNat) →
      exec (.decode src len dst count) s = .next { s with
        errs := s.errs ||| 0b0001000#7, responses := s.responses ++ [⟨0x00004104#32, 0#32⟩] }) ∧
    (s.mem.Holds src.toNat len.toNat → s.mem.Holds dst.toNat count.toNat →
      ¬ Apart src.toNat len.toNat dst.toNat count.toNat →
      exec (.decode src len dst count) s = .next { s with
        errs := s.errs ||| 0b0010000#7, responses := s.responses ++ [⟨0x00004105#32, 0#32⟩] }) ∧
    (s.mem.Holds src.toNat len.toNat → s.mem.Holds dst.toNat count.toNat →
      Apart src.toNat len.toNat dst.toNat count.toNat → len.toNat * (8 / s.w.toNat) < count.toNat →
      exec (.decode src len dst count) s = .next { s with
        errs := s.errs ||| 0b0100000#7, responses := s.responses ++ [⟨0x00004106#32, 0#32⟩] }) ∧
    (¬ (s.mem.Holds src.toNat len.toNat ∧ s.mem.Holds dst.toNat (len.toNat * (8 / s.w.toNat))) →
      exec (.decodeRaw src len dst) s = .next { s with
        errs := s.errs ||| 0b0001000#7, responses := s.responses ++ [⟨0x00004204#32, 0#32⟩] }) ∧
    (s.mem.Holds src.toNat len.toNat → s.mem.Holds dst.toNat (len.toNat * (8 / s.w.toNat)) →
      ¬ Apart src.toNat len.toNat dst.toNat (len.toNat * (8 / s.w.toNat)) →
      exec (.decodeRaw src len dst) s = .next { s with
        errs := s.errs ||| 0b0010000#7, responses := s.responses ++ [⟨0x00004205#32, 0#32⟩] })

/-- R180: a codec command neither reads nor writes the streaming registers: with any other values in them it does the
same, and leaves those values. Of the rest it changes only `M` or ERRS. -/
def Obligations.CodecLeavesTheStreamingStateAlone : Prop :=
  ∀ (s : State) (i : Instr) (acc : Byte) (pOff uOff : BitVec 4) (pPtr uPtr uRem : Word), i.isCodec = true →
    nextState (exec i { s with pAcc := acc, pOff := pOff, pPtr := pPtr, uPtr := uPtr, uRem := uRem, uOff := uOff }) =
      ((nextState (exec i s)).map fun t =>
        { t with pAcc := acc, pOff := pOff, pPtr := pPtr, uPtr := uPtr, uRem := uRem, uOff := uOff }) ∧
    ∃ (t : State) (r : Response), exec i s = .next t ∧
      (t = { s with mem := t.mem, responses := s.responses ++ [r] } ∨
        t = { s with errs := t.errs, responses := s.responses ++ [r] })

/-- R186: what ENCODE packs and DECODE at the same width unpacks is every sample quantized and reconstructed; at N = 8 it
is the sample. The samples are those before the two commands. -/
def Obligations.EncodeThenDecodeReconstructs : Prop :=
  ∀ (s : State) (src d dst L : Word), s.Inv → s.mem.Holds src.toNat L.toNat →
    s.mem.Holds d.toNat (ceilDiv (L.toNat * s.w.toNat) 8) → s.mem.Holds dst.toNat L.toNat →
    Apart src.toNat L.toNat d.toNat (ceilDiv (L.toNat * s.w.toNat) 8) →
    Apart d.toNat (ceilDiv (L.toNat * s.w.toNat) 8) dst.toNat L.toNat →
    ∃ t u : State, exec (.encode src d L) s = .next t ∧
      exec (.decode d (BitVec.ofNat 32 (ceilDiv (L.toNat * s.w.toNat) 8)) dst L) t = .next u ∧
      (∀ r ∈ u.responses.drop s.responses.length, r.code = 0) ∧
      (∀ i : Nat, i < L.toNat → (u.mem.read (dst.toNat + i)).toNat =
        (s.mem.read (src.toNat + i)).toNat / 2 ^ (8 - s.w.toNat) * (255 / (2 ^ s.w.toNat - 1))) ∧
      (s.w = 8#4 → ∀ i : Nat, i < L.toNat → u.mem.read (dst.toNat + i) = s.mem.read (src.toNat + i))

/-- R167, on buffers: DECODE_RAW and then ENCODE of its output, at the same width, gives back the packed bytes. -/
def Obligations.DecodedBufferEncodesToTheSameBytes : Prop :=
  ∀ (s : State) (src len dst back : Word), s.Inv → s.mem.Holds src.toNat len.toNat →
    s.mem.Holds dst.toNat (len.toNat * (8 / s.w.toNat)) → s.mem.Holds back.toNat len.toNat →
    Apart src.toNat len.toNat dst.toNat (len.toNat * (8 / s.w.toNat)) →
    Apart dst.toNat (len.toNat * (8 / s.w.toNat)) back.toNat len.toNat →
    ∃ t u : State, exec (.decodeRaw src len dst) s = .next t ∧
      exec (.encode dst back (BitVec.ofNat 32 (len.toNat * (8 / s.w.toNat)))) t = .next u ∧
      (∀ r ∈ u.responses.drop s.responses.length, r.code = 0) ∧
      ∀ k : Nat, k < len.toNat → u.mem.read (back.toNat + k) = s.mem.read (src.toNat + k)

/-- R187, packing: ENCODE leaves the same memory as PBIND, one PACK of each quantized sample, and PCOMMIT. -/
def Obligations.EncodeAgreesWithThePackingSession : Prop :=
  ∀ (s : State) (src dst L : Word), s.Inv → s.mem.Holds src.toNat L.toNat →
    s.mem.Holds dst.toNat (ceilDiv (L.toNat * s.w.toNat) 8) →
    Apart src.toNat L.toNat dst.toNat (ceilDiv (L.toNat * s.w.toNat) 8) →
    ∃ t u : State, exec (.encode src dst L) s = .next t ∧
      runCommands (.pbind dst ::
        (List.range L.toNat).map (fun i =>
          .pack (BitVec.ofNat 8 ((s.mem.read (src.toNat + i)).toNat / 2 ^ (8 - s.w.toNat)))) ++ [.pcommit]) s =
        some u ∧
      u.mem = t.mem

/-- R187, unpacking: sample k that DECODE writes is what QINV answers for what the k-th UNPACK after UBIND answers. -/
def Obligations.DecodeAgreesWithTheUnpackingSession : Prop :=
  ∀ (s : State) (src len dst count : Word), s.Inv → s.mem.Holds src.toNat len.toNat →
    s.mem.Holds dst.toNat count.toNat → Apart src.toNat len.toNat dst.toNat count.toNat →
    count.toNat ≤ len.toNat * (8 / s.w.toNat) →
    ∃ t : State, exec (.decode src len dst count) s = .next t ∧
      ∀ k : Nat, k < count.toNat → ∃ (u : State) (c v : Word),
        runCommands (.ubind src len :: List.replicate k .unpack) s = some u ∧
        answer (exec .unpack u) = some ⟨0x00003100#32, c⟩ ∧
        answer (exec (.qinv (c.setWidth 8)) u) = some ⟨0x00001100#32, v⟩ ∧
        t.mem.read (dst.toNat + k) = v.setWidth 8

/-- R188: where the first part is a whole number of bytes, two ENCODEs of adjoining parts, the second's output placed
after the first's, leave the same memory as one ENCODE of the whole. -/
def Obligations.EncodeSplitsAtWholeBytes : Prop :=
  ∀ (s : State) (src dst L1 L2 : Word), s.Inv → L1.toNat % (8 / s.w.toNat) = 0 → L1.toNat + L2.toNat < 2 ^ 32 →
    s.mem.Holds src.toNat (L1.toNat + L2.toNat) →
    s.mem.Holds dst.toNat (ceilDiv ((L1.toNat + L2.toNat) * s.w.toNat) 8) →
    Apart src.toNat (L1.toNat + L2.toNat) dst.toNat (ceilDiv ((L1.toNat + L2.toNat) * s.w.toNat) 8) →
    ∃ t u v : State, exec (.encode src dst (L1 + L2)) s = .next t ∧ exec (.encode src dst L1) s = .next u ∧
      exec (.encode (src + L1) (dst + BitVec.ofNat 32 (L1.toNat / (8 / s.w.toNat))) L2) u = .next v ∧
      v.mem = t.mem

/-! ### Errors, and what no command does -/

/-- R203, R201: error entry. Every command that answers sends one response with its opcode; where the response's code is
not 0, its value is 0, ERRS bit (code - 1) is set, and nothing else has changed. -/
def Obligations.ErrorChangesOnlyItsBit : Prop :=
  ∀ (s t : State) (i : Instr), exec i s = .next t →
    ∃ r : Response, t.responses = s.responses ++ [r] ∧ r.opc = i.opcode ∧
      (r.code ≠ 0 → r.value = 0 ∧
        t = { s with errs := s.errs ||| (1#7 <<< (r.code.toNat - 1)), responses := s.responses ++ [r] }) ∧
      (r.code = 0 → t.errs = if i = .clrerr then 0 else s.errs)

/-- R200, R206: a command raises only the errors listed for it; codes 8 to 15 are never produced. -/
def Obligations.CommandsRaiseOnlyTheirErrors : Prop :=
  ∀ (s t : State) (i : Instr), exec i s = .next t →
    ∃ r : Response, t.responses = s.responses ++ [r] ∧ (r.code = 0 ∨ r.code ∈ i.mayRaise) ∧ r.code.toNat < 8

/-- R214: from every state that meets the invariants every command finishes, with one response. -/
def Obligations.EveryCommandFinishesWithAResponse : Prop :=
  ∀ (s : State) (i : Instr), s.Inv → ∃ (t : State) (r : Response),
    exec i s = .next t ∧ t.responses = s.responses ++ [r] ∧ t.input = s.input

/-- R31, R204: a set error bit does not stop or change a command: with any other bits in ERRS a command other than STAT
(which answers them) does the same, and adds to those bits what it would add to none. -/
def Obligations.StickyErrorBitsChangeNoCommand : Prop :=
  ∀ (s : State) (i : Instr) (e : BitVec 7), i ≠ .stat →
    nextState (exec i { s with errs := e }) =
      (nextState (exec i { s with errs := 0 })).map fun t =>
        { t with errs := if i = .clrerr then 0 else e ||| t.errs }

/-- R20: only SETW writes W, and SETW writes only a legal value. (DISP goes with it: R21.) -/
def Obligations.OnlySetwWritesTheWidth : Prop :=
  ∀ (s t : State) (i : Instr), exec i s = .next t →
    (t.w = s.w ∧ t.disp = s.disp) ∨
      ((∃ imm, i = .setw imm) ∧ (t.w = 1#4 ∨ t.w = 2#4 ∨ t.w = 4#4 ∨ t.w = 8#4) ∧ t.disp = dispatch t.width)

/-- R35: no command of one unit writes the other unit's state; the codec's commands write neither's. -/
def Obligations.UnitsOwnTheirState : Prop :=
  ∀ (s t : State) (i : Instr), exec i s = .next t →
    (i.isPacker = true ∨ i.isCodec = true → t.uPtr = s.uPtr ∧ t.uRem = s.uRem ∧ t.uOff = s.uOff) ∧
    (i.isUnpacker = true ∨ i.isCodec = true → t.pAcc = s.pAcc ∧ t.pOff = s.pOff ∧ t.pPtr = s.pPtr)

/-- R51: the commands that write `M` are PACK, PCOMMIT and the codec's; every other leaves every byte as it was. -/
def Obligations.OnlyTheListedCommandsWriteMemory : Prop :=
  ∀ (s t : State) (i : Instr), exec i s = .next t → i.isCodec = false → (∀ c, i ≠ .pack c) → i ≠ .pcommit →
    t.mem = s.mem

/-! ### The host between commands -/

/-- R64, R59, R62: a host write of an address of `M` stores that byte and changes nothing else, and a host read after it
gives the byte back. -/
def Obligations.HostWriteIsSeenByAHostRead : Prop :=
  ∀ (s : State) (a : Word) (b : Byte) (rest : List HostEvent), s.mem.wf = true → s.input = .write a b :: rest →
    a.toNat < s.mem.size →
    ∃ m : Memory, step s = .next { s with mem := m, input := rest } ∧ m.size = s.mem.size ∧
      { s with mem := m, input := rest }.hostRead a = some b ∧
      ∀ x : Word, x ≠ a → { s with mem := m, input := rest }.hostRead x = s.hostRead x

/-- The model's own stops (log 9, log 10): a host write to an address that is not in `M`, and, in states that no run
reaches, an UNPACK whose U_PTR is not in `M`, fault. -/
def Obligations.AccessesOutsideMemoryFault : Prop :=
  (∀ (s : State) (a : Word) (b : Byte) (rest : List HostEvent), s.input = .write a b :: rest →
    s.mem.size ≤ a.toNat → step s = .fault .hostWriteOutsideMemory) ∧
  ∀ s : State, s.uRem ≠ 0 → s.mem.size ≤ s.uPtr.toNat → exec .unpack s = .fault .noSuchAddress

/-- R66: the unpacker keeps no byte: after a host write to the bound byte, the next UNPACK answers from the new value. -/
def Obligations.UnpackSeesAHostWrite : Prop :=
  ∀ (s : State) (b : Byte) (rest : List HostEvent), s.Inv → s.uRem ≠ 0 →
    s.input = .write s.uPtr b :: .word 0x00000031#32 :: rest →
    ∃ t u : State, step s = .next t ∧ step t = .next u ∧ u.input = rest ∧
      u.responses = s.responses ++ [⟨0x00003100#32, BitVec.ofNat 32 (b.toNat / 2 ^ s.uOff.toNat % 2 ^ s.w.toNat)⟩]

/-- The model's reading of R213 and R232 (log 6): with nothing sent the core waits, and its state is kept. -/
def Obligations.CoreWaitsForTheHost : Prop :=
  ∀ s : State, s.input = [] → step s = .next s

/-- The model's own refusal (log 7): a packet that ends before its operand words, which R233 does not represent. -/
def Obligations.PartialPacketIsRefused : Prop :=
  ∀ (s : State) (cw : Word) (ops : List Word), ops.length < packetOperands (cw.extractLsb' 0 8) →
    s.input = (cw :: ops).map .word → step s = .refused .partialPacket
end

