-- ==== Sys2Proof/Laws/State.lean ====
section
/-! SUPPORT. What each update of the state does to each field: one lemma per field per update, so that no proof unfolds
a record update. -/

namespace Sys2Proof.Machine

variable (s : State)

section setMem

variable (m : Memory)

@[simp] theorem State.setMem_w : (s.setMem m).w = s.w := rfl
@[simp] theorem State.setMem_disp : (s.setMem m).disp = s.disp := rfl
@[simp] theorem State.setMem_pAcc : (s.setMem m).pAcc = s.pAcc := rfl
@[simp] theorem State.setMem_pOff : (s.setMem m).pOff = s.pOff := rfl
@[simp] theorem State.setMem_pPtr : (s.setMem m).pPtr = s.pPtr := rfl
@[simp] theorem State.setMem_uPtr : (s.setMem m).uPtr = s.uPtr := rfl
@[simp] theorem State.setMem_uRem : (s.setMem m).uRem = s.uRem := rfl
@[simp] theorem State.setMem_uOff : (s.setMem m).uOff = s.uOff := rfl
@[simp] theorem State.setMem_errs : (s.setMem m).errs = s.errs := rfl
@[simp] theorem State.setMem_mem : (s.setMem m).mem = m := rfl
@[simp] theorem State.setMem_invImpl : (s.setMem m).invImpl = s.invImpl := rfl
@[simp] theorem State.setMem_input : (s.setMem m).input = s.input := rfl
@[simp] theorem State.setMem_responses : (s.setMem m).responses = s.responses := rfl
@[simp] theorem State.setMem_width : (s.setMem m).width = s.width := rfl

end setMem

section setErrs

variable (e : BitVec 7)

@[simp] theorem State.setErrs_w : (s.setErrs e).w = s.w := rfl
@[simp] theorem State.setErrs_disp : (s.setErrs e).disp = s.disp := rfl
@[simp] theorem State.setErrs_pAcc : (s.setErrs e).pAcc = s.pAcc := rfl
@[simp] theorem State.setErrs_pOff : (s.setErrs e).pOff = s.pOff := rfl
@[simp] theorem State.setErrs_pPtr : (s.setErrs e).pPtr = s.pPtr := rfl
@[simp] theorem State.setErrs_uPtr : (s.setErrs e).uPtr = s.uPtr := rfl
@[simp] theorem State.setErrs_uRem : (s.setErrs e).uRem = s.uRem := rfl
@[simp] theorem State.setErrs_uOff : (s.setErrs e).uOff = s.uOff := rfl
@[simp] theorem State.setErrs_errs : (s.setErrs e).errs = e := rfl
@[simp] theorem State.setErrs_mem : (s.setErrs e).mem = s.mem := rfl
@[simp] theorem State.setErrs_invImpl : (s.setErrs e).invImpl = s.invImpl := rfl
@[simp] theorem State.setErrs_input : (s.setErrs e).input = s.input := rfl
@[simp] theorem State.setErrs_responses : (s.setErrs e).responses = s.responses := rfl
@[simp] theorem State.setErrs_width : (s.setErrs e).width = s.width := rfl

end setErrs

section setWidth

variable (w : BitVec 4) (d : Disp)

@[simp] theorem State.setWidth_w : (s.setWidth w d).w = w := rfl
@[simp] theorem State.setWidth_disp : (s.setWidth w d).disp = d := rfl
@[simp] theorem State.setWidth_pAcc : (s.setWidth w d).pAcc = s.pAcc := rfl
@[simp] theorem State.setWidth_pOff : (s.setWidth w d).pOff = s.pOff := rfl
@[simp] theorem State.setWidth_pPtr : (s.setWidth w d).pPtr = s.pPtr := rfl
@[simp] theorem State.setWidth_uPtr : (s.setWidth w d).uPtr = s.uPtr := rfl
@[simp] theorem State.setWidth_uRem : (s.setWidth w d).uRem = s.uRem := rfl
@[simp] theorem State.setWidth_uOff : (s.setWidth w d).uOff = s.uOff := rfl
@[simp] theorem State.setWidth_errs : (s.setWidth w d).errs = s.errs := rfl
@[simp] theorem State.setWidth_mem : (s.setWidth w d).mem = s.mem := rfl
@[simp] theorem State.setWidth_invImpl : (s.setWidth w d).invImpl = s.invImpl := rfl
@[simp] theorem State.setWidth_input : (s.setWidth w d).input = s.input := rfl
@[simp] theorem State.setWidth_responses : (s.setWidth w d).responses = s.responses := rfl
@[simp] theorem State.setWidth_width : (s.setWidth w d).width = w.toNat := rfl

end setWidth

section setPacker

variable (a : Byte) (o : BitVec 4) (p : Word)

@[simp] theorem State.setPacker_w : (s.setPacker a o p).w = s.w := rfl
@[simp] theorem State.setPacker_disp : (s.setPacker a o p).disp = s.disp := rfl
@[simp] theorem State.setPacker_pAcc : (s.setPacker a o p).pAcc = a := rfl
@[simp] theorem State.setPacker_pOff : (s.setPacker a o p).pOff = o := rfl
@[simp] theorem State.setPacker_pPtr : (s.setPacker a o p).pPtr = p := rfl
@[simp] theorem State.setPacker_uPtr : (s.setPacker a o p).uPtr = s.uPtr := rfl
@[simp] theorem State.setPacker_uRem : (s.setPacker a o p).uRem = s.uRem := rfl
@[simp] theorem State.setPacker_uOff : (s.setPacker a o p).uOff = s.uOff := rfl
@[simp] theorem State.setPacker_errs : (s.setPacker a o p).errs = s.errs := rfl
@[simp] theorem State.setPacker_mem : (s.setPacker a o p).mem = s.mem := rfl
@[simp] theorem State.setPacker_invImpl : (s.setPacker a o p).invImpl = s.invImpl := rfl
@[simp] theorem State.setPacker_input : (s.setPacker a o p).input = s.input := rfl
@[simp] theorem State.setPacker_responses : (s.setPacker a o p).responses = s.responses := rfl
@[simp] theorem State.setPacker_width : (s.setPacker a o p).width = s.width := rfl

end setPacker

section setUnpacker

variable (p r : Word) (o : BitVec 4)

@[simp] theorem State.setUnpacker_w : (s.setUnpacker p r o).w = s.w := rfl
@[simp] theorem State.setUnpacker_disp : (s.setUnpacker p r o).disp = s.disp := rfl
@[simp] theorem State.setUnpacker_pAcc : (s.setUnpacker p r o).pAcc = s.pAcc := rfl
@[simp] theorem State.setUnpacker_pOff : (s.setUnpacker p r o).pOff = s.pOff := rfl
@[simp] theorem State.setUnpacker_pPtr : (s.setUnpacker p r o).pPtr = s.pPtr := rfl
@[simp] theorem State.setUnpacker_uPtr : (s.setUnpacker p r o).uPtr = p := rfl
@[simp] theorem State.setUnpacker_uRem : (s.setUnpacker p r o).uRem = r := rfl
@[simp] theorem State.setUnpacker_uOff : (s.setUnpacker p r o).uOff = o := rfl
@[simp] theorem State.setUnpacker_errs : (s.setUnpacker p r o).errs = s.errs := rfl
@[simp] theorem State.setUnpacker_mem : (s.setUnpacker p r o).mem = s.mem := rfl
@[simp] theorem State.setUnpacker_invImpl : (s.setUnpacker p r o).invImpl = s.invImpl := rfl
@[simp] theorem State.setUnpacker_input : (s.setUnpacker p r o).input = s.input := rfl
@[simp] theorem State.setUnpacker_responses : (s.setUnpacker p r o).responses = s.responses := rfl
@[simp] theorem State.setUnpacker_width : (s.setUnpacker p r o).width = s.width := rfl

end setUnpacker

section setInput

variable (es : List HostEvent)

@[simp] theorem State.setInput_w : (s.setInput es).w = s.w := rfl
@[simp] theorem State.setInput_disp : (s.setInput es).disp = s.disp := rfl
@[simp] theorem State.setInput_pAcc : (s.setInput es).pAcc = s.pAcc := rfl
@[simp] theorem State.setInput_pOff : (s.setInput es).pOff = s.pOff := rfl
@[simp] theorem State.setInput_pPtr : (s.setInput es).pPtr = s.pPtr := rfl
@[simp] theorem State.setInput_uPtr : (s.setInput es).uPtr = s.uPtr := rfl
@[simp] theorem State.setInput_uRem : (s.setInput es).uRem = s.uRem := rfl
@[simp] theorem State.setInput_uOff : (s.setInput es).uOff = s.uOff := rfl
@[simp] theorem State.setInput_errs : (s.setInput es).errs = s.errs := rfl
@[simp] theorem State.setInput_mem : (s.setInput es).mem = s.mem := rfl
@[simp] theorem State.setInput_invImpl : (s.setInput es).invImpl = s.invImpl := rfl
@[simp] theorem State.setInput_input : (s.setInput es).input = es := rfl
@[simp] theorem State.setInput_responses : (s.setInput es).responses = s.responses := rfl
@[simp] theorem State.setInput_width : (s.setInput es).width = s.width := rfl

end setInput

section addResponse

variable (r : Response)

@[simp] theorem State.addResponse_w : (s.addResponse r).w = s.w := rfl
@[simp] theorem State.addResponse_disp : (s.addResponse r).disp = s.disp := rfl
@[simp] theorem State.addResponse_pAcc : (s.addResponse r).pAcc = s.pAcc := rfl
@[simp] theorem State.addResponse_pOff : (s.addResponse r).pOff = s.pOff := rfl
@[simp] theorem State.addResponse_pPtr : (s.addResponse r).pPtr = s.pPtr := rfl
@[simp] theorem State.addResponse_uPtr : (s.addResponse r).uPtr = s.uPtr := rfl
@[simp] theorem State.addResponse_uRem : (s.addResponse r).uRem = s.uRem := rfl
@[simp] theorem State.addResponse_uOff : (s.addResponse r).uOff = s.uOff := rfl
@[simp] theorem State.addResponse_errs : (s.addResponse r).errs = s.errs := rfl
@[simp] theorem State.addResponse_mem : (s.addResponse r).mem = s.mem := rfl
@[simp] theorem State.addResponse_invImpl : (s.addResponse r).invImpl = s.invImpl := rfl
@[simp] theorem State.addResponse_input : (s.addResponse r).input = s.input := rfl
@[simp] theorem State.addResponse_responses : (s.addResponse r).responses = s.responses ++ [r] := rfl
@[simp] theorem State.addResponse_width : (s.addResponse r).width = s.width := rfl

end addResponse

end Sys2Proof.Machine
end

