-- ==== Sys2Proof/Laws/Memory.lean ====
section
/-! SUPPORT. The memory laws: every operation keeps the canonical form, a read after a write gives the byte written, a
write leaves every other address alone, and equal contents are equal data (spec/20_memory.md R50, R59). -/

namespace Sys2Proof.Machine

theorem Memory.cellsWf_cons {size lo a : Nat} {b : Byte} {cs : List Host.Cell} :
    Memory.cellsWf size lo ((a, b) :: cs) = true ↔
      lo ≤ a ∧ a < size ∧ b ≠ Memory.unlisted ∧ Memory.cellsWf size (a + 1) cs = true := by
  simp [Memory.cellsWf, and_assoc]

theorem Memory.cellsWf_mono {size lo lo' : Nat} {cs : List Host.Cell} (h : Memory.cellsWf size lo cs = true)
    (hle : lo' ≤ lo) : Memory.cellsWf size lo' cs = true := by
  cases cs with
  | nil => rfl
  | cons c cs =>
    obtain ⟨a, b⟩ := c
    rw [Memory.cellsWf_cons] at h ⊢
    exact ⟨by omega, h.2⟩

/-- An address below every cell is not listed. -/
theorem readCells_below {size lo a : Nat} {cs : List Host.Cell} (h : Memory.cellsWf size lo cs = true) (ha : a < lo) :
    readCells cs a = Memory.unlisted := by
  induction cs generalizing lo with
  | nil => rfl
  | cons c cs ih =>
    obtain ⟨x, v⟩ := c
    rw [Memory.cellsWf_cons] at h
    have hx : x ≠ a := by omega
    simp only [readCells, hx, if_false]
    exact ih h.2.2.2 (by omega)

/-- An address at or past the end of memory is not listed. -/
theorem readCells_beyond {size lo a : Nat} {cs : List Host.Cell} (h : Memory.cellsWf size lo cs = true) (ha : size ≤ a) :
    readCells cs a = Memory.unlisted := by
  induction cs generalizing lo with
  | nil => rfl
  | cons c cs ih =>
    obtain ⟨x, v⟩ := c
    rw [Memory.cellsWf_cons] at h
    have hx : x ≠ a := by omega
    simp only [readCells, hx, if_false]
    exact ih h.2.2.2

theorem readCells_cellOf_append {a x : Nat} {b : Byte} {cs : List Host.Cell} :
    readCells (cellOf a b ++ cs) x = if a = x ∧ b ≠ Memory.unlisted then b else readCells cs x := by
  by_cases hb : b = Memory.unlisted
  · simp [cellOf, hb]
  · by_cases hx : a = x <;> simp [cellOf, hb, hx, readCells]

theorem cellsWf_cellOf_append {size lo a : Nat} {b : Byte} {cs : List Host.Cell} (hlo : lo ≤ a) (ha : a < size)
    (h : Memory.cellsWf size (a + 1) cs = true) : Memory.cellsWf size lo (cellOf a b ++ cs) = true := by
  by_cases hb : b = Memory.unlisted
  · simp only [cellOf, hb, if_true, List.nil_append]
    exact Memory.cellsWf_mono h (by omega)
  · simp only [cellOf, hb, if_false, List.cons_append, List.nil_append]
    exact Memory.cellsWf_cons.mpr ⟨hlo, ha, hb, h⟩

/-- A store keeps the canonical form of the cells. -/
theorem cellsWf_writeCells {size lo a : Nat} {b : Byte} {cs : List Host.Cell} (h : Memory.cellsWf size lo cs = true)
    (hlo : lo ≤ a) (ha : a < size) : Memory.cellsWf size lo (writeCells cs a b) = true := by
  induction cs generalizing lo with
  | nil => simpa [writeCells] using cellsWf_cellOf_append (b := b) hlo ha (cs := []) rfl
  | cons c cs ih =>
    obtain ⟨x, v⟩ := c
    have h' := Memory.cellsWf_cons.mp h
    simp only [writeCells]
    split
    · exact cellsWf_cellOf_append hlo ha (Memory.cellsWf_cons.mpr ⟨by omega, h'.2⟩)
    · split
      · next hx => subst hx; exact cellsWf_cellOf_append hlo ha h'.2.2.2
      · exact Memory.cellsWf_cons.mpr ⟨h'.1, h'.2.1, h'.2.2.1, ih h'.2.2.2 (by omega)⟩

/-- What a store does to every read, in one equation. -/
theorem readCells_writeCells {size lo a x : Nat} {b : Byte} {cs : List Host.Cell}
    (h : Memory.cellsWf size lo cs = true) :
    readCells (writeCells cs a b) x = if x = a then b else readCells cs x := by
  induction cs generalizing lo with
  | nil =>
    have := readCells_cellOf_append (a := a) (x := x) (b := b) (cs := [])
    simp only [List.append_nil] at this
    rw [writeCells, this]
    by_cases hx : x = a
    · subst hx
      by_cases hb : b = Memory.unlisted <;> simp [hb, readCells]
    · have hx' : a ≠ x := fun e => hx e.symm
      simp [hx, hx']
  | cons c cs ih =>
    obtain ⟨y, v⟩ := c
    have h' := Memory.cellsWf_cons.mp h
    simp only [writeCells]
    split
    · next hlt =>
      rw [readCells_cellOf_append]
      by_cases hx : x = a
      · subst hx
        have hb' : readCells ((y, v) :: cs) x = Memory.unlisted :=
          readCells_below (Memory.cellsWf_cons.mpr ⟨Nat.le_refl y, h'.2⟩) hlt
        by_cases hb : b = Memory.unlisted
        · simp [hb, hb']
        · simp [hb]
      · have hx' : a ≠ x := fun e => hx e.symm
        simp [hx, hx']
    · split
      · next hay =>
        subst hay
        rw [readCells_cellOf_append]
        by_cases hx : x = a
        · subst hx
          have hb' := readCells_below h'.2.2.2 (Nat.lt_succ_self x)
          by_cases hb : b = Memory.unlisted
          · simp [hb, hb']
          · simp [hb]
        · have hx' : a ≠ x := fun e => hx e.symm
          simp [hx, hx', readCells]
      · next hne =>
        simp only [readCells, ih h'.2.2.2]
        by_cases hyx : y = x
        · subst hyx
          have : y ≠ a := fun e => hne e.symm
          simp [this]
        · simp [hyx]

/-- The canonical form, clause by clause. -/
theorem Memory.wf_iff {m : Memory} :
    m.wf = true ↔ 1 ≤ m.size ∧ m.size ≤ 2 ^ 32 ∧ Memory.cellsWf m.size 0 m.cells = true := by
  simp [Memory.wf, and_assoc]

@[simp] theorem Memory.write_size (m : Memory) (a : Nat) (b : Byte) : (m.write a b).size = m.size := by
  unfold Memory.write; split <;> rfl

/-- A write keeps the canonical form. -/
theorem Memory.write_wf {m : Memory} (h : m.wf = true) (a : Nat) (b : Byte) : (m.write a b).wf = true := by
  by_cases ha : a < m.size
  · obtain ⟨h1, h2, h3⟩ := Memory.wf_iff.mp h
    have : m.write a b = { m with cells := writeCells m.cells a b } := by simp [Memory.write, ha]
    rw [this]
    exact Memory.wf_iff.mpr ⟨h1, h2, cellsWf_writeCells h3 (Nat.zero_le a) ha⟩
  · simpa [Memory.write, ha] using h

/-- What a write inside `M` does to every read. -/
theorem Memory.read_write {m : Memory} (h : m.wf = true) {a : Nat} (ha : a < m.size) (b : Byte) (x : Nat) :
    (m.write a b).read x = if x = a then b else m.read x := by
  simp only [Memory.write, ha, if_true, Memory.read]
  exact readCells_writeCells (Memory.wf_iff.mp h).2.2

/-- A read after a write to the same address gives the byte written (R59). -/
theorem Memory.read_write_same {m : Memory} (h : m.wf = true) {a : Nat} (ha : a < m.size) (b : Byte) :
    (m.write a b).read a = b := by
  rw [Memory.read_write h ha, if_pos rfl]

/-- A write leaves every other address alone (R59). -/
theorem Memory.read_write_other {m : Memory} (h : m.wf = true) {a x : Nat} (hx : x ≠ a) (b : Byte) :
    (m.write a b).read x = m.read x := by
  by_cases ha : a < m.size
  · rw [Memory.read_write h ha, if_neg hx]
  · simp [Memory.write, ha]

/-- No address at or past MEM_SIZE is listed. -/
theorem Memory.read_beyond {m : Memory} (h : m.wf = true) {a : Nat} (ha : m.size ≤ a) : m.read a = Memory.unlisted :=
  readCells_beyond (Memory.wf_iff.mp h).2.2 ha

theorem cells_ext {size lo : Nat} {cs ds : List Host.Cell} (hc : Memory.cellsWf size lo cs = true)
    (hd : Memory.cellsWf size lo ds = true) (h : ∀ a, readCells cs a = readCells ds a) : cs = ds := by
  induction cs generalizing lo ds with
  | nil =>
    cases ds with
    | nil => rfl
    | cons d ds =>
      obtain ⟨y, v⟩ := d
      have := h y
      simp [readCells] at this
      exact absurd this.symm (Memory.cellsWf_cons.mp hd).2.2.1
  | cons c cs ih =>
    obtain ⟨x, u⟩ := c
    have hc' := Memory.cellsWf_cons.mp hc
    cases ds with
    | nil =>
      have := h x
      simp [readCells] at this
      exact absurd this hc'.2.2.1
    | cons d ds =>
      obtain ⟨y, v⟩ := d
      have hd' := Memory.cellsWf_cons.mp hd
      have hx := h x
      have hy := h y
      have hxy : x = y := by
        rcases Nat.lt_trichotomy x y with hlt | heq | hgt
        · have hb := readCells_below (Memory.cellsWf_cons.mpr ⟨Nat.le_refl y, hd'.2⟩) hlt
          rw [hb] at hx
          simp [readCells] at hx
          exact absurd hx hc'.2.2.1
        · exact heq
        · have hb := readCells_below (Memory.cellsWf_cons.mpr ⟨Nat.le_refl x, hc'.2⟩) hgt
          rw [hb] at hy
          simp [readCells] at hy
          exact absurd hy.symm hd'.2.2.1
      subst hxy
      have huv : u = v := by simpa [readCells] using hx
      subst huv
      have htail : cs = ds := by
        refine ih hc'.2.2.2 hd'.2.2.2 fun a => ?_
        by_cases ha : x = a
        · subst ha
          rw [readCells_below hc'.2.2.2 (Nat.lt_succ_self x), readCells_below hd'.2.2.2 (Nat.lt_succ_self x)]
        · simpa [readCells, ha] using h a
      rw [htail]

/-- Two memories in canonical form that have one size and read alike at every address of `M` are equal data. -/
theorem Memory.ext_read {m n : Memory} (hm : m.wf = true) (hn : n.wf = true) (hs : m.size = n.size)
    (h : ∀ a, a < m.size → m.read a = n.read a) : m = n := by
  obtain ⟨_, _, cm⟩ := Memory.wf_iff.mp hm
  obtain ⟨_, _, cn⟩ := Memory.wf_iff.mp hn
  have hcells : m.cells = n.cells := by
    refine cells_ext cm (hs ▸ cn) fun a => ?_
    by_cases ha : a < m.size
    · exact h a ha
    · have e1 := Memory.read_beyond hm (Nat.le_of_not_lt ha)
      have e2 := Memory.read_beyond hn (hs ▸ Nat.le_of_not_lt ha)
      exact e1.trans e2.symm
  cases m; cases n; simp_all

/-- The cells that power-on lists for the addresses from `lo` on, as the range of `k` addresses gives them. -/
theorem initial_cells_spec (size : Nat) (f : Nat → Byte) (k lo : Nat) (hk : lo + k ≤ size) :
    Memory.cellsWf size lo ((List.range' lo k).filterMap fun a =>
        if f a = Memory.unlisted then none else some (a, f a)) = true ∧
      ∀ a, readCells ((List.range' lo k).filterMap fun a =>
        if f a = Memory.unlisted then none else some (a, f a)) a =
          if lo ≤ a ∧ a < lo + k then f a else Memory.unlisted := by
  induction k generalizing lo with
  | zero =>
    refine ⟨rfl, fun a => ?_⟩
    simp [readCells]
  | succ k ih =>
    obtain ⟨hwf, hread⟩ := ih (lo + 1) (by omega)
    rw [List.range'_succ, List.filterMap_cons]
    by_cases hb : f lo = Memory.unlisted
    · simp only [hb, if_true]
      refine ⟨Memory.cellsWf_mono hwf (Nat.le_succ lo), fun a => ?_⟩
      rw [hread a]
      by_cases hlo : a = lo
      · subst hlo; simp [hb]
      · have : (lo + 1 ≤ a ∧ a < lo + 1 + k) ↔ (lo ≤ a ∧ a < lo + (k + 1)) := by omega
        simp only [this]
    · simp only [hb, if_false]
      refine ⟨Memory.cellsWf_cons.mpr ⟨Nat.le_refl lo, by omega, hb, hwf⟩, fun a => ?_⟩
      rw [readCells]
      by_cases hlo : lo = a
      · subst hlo; simp
      · rw [if_neg hlo, hread a]
        have : (lo + 1 ≤ a ∧ a < lo + 1 + k) ↔ (lo ≤ a ∧ a < lo + (k + 1)) := by omega
        simp only [this]

/-- The memory at power-on is in canonical form. -/
theorem Memory.initial_wf {size : Nat} (h1 : 1 ≤ size) (h2 : size ≤ 2 ^ 32) (init : Word → Byte) :
    (Memory.initial size init).wf = true := by
  refine Memory.wf_iff.mpr ⟨h1, h2, ?_⟩
  have := (initial_cells_spec size (fun a => init (BitVec.ofNat 32 a)) size 0 (by omega)).1
  simpa [Memory.initial, List.range_eq_range'] using this

/-- Every address of the memory at power-on reads as its MEM_INIT byte (R220). -/
theorem Memory.initial_read {size a : Nat} (init : Word → Byte) (ha : a < size) :
    (Memory.initial size init).read a = init (BitVec.ofNat 32 a) := by
  have := (initial_cells_spec size (fun a => init (BitVec.ofNat 32 a)) size 0 (by omega)).2 a
  simpa [Memory.initial, Memory.read, List.range_eq_range', ha] using this

/-- MEM_SIZE is a natural from 1 to 2^32 (R6). -/
theorem memSize_bounds : 1 ≤ Config.memSize ∧ Config.memSize ≤ 2 ^ 32 := by
  have := Config.memSizeLessOne.isLt
  unfold Config.memSize
  omega

/-- The reset state's memory is in canonical form. -/
theorem State.reset_mem_wf : State.reset.mem.wf = true :=
  Memory.initial_wf memSize_bounds.1 memSize_bounds.2 _

end Sys2Proof.Machine
end

