-- ==== Sys2Proof/Laws/Ops.lean ====
section
/-! SUPPORT. What each shared operation can do, said once for each: the provers cite these and do not unfold the
operations. -/

namespace Sys2Proof.Machine

/-! ### Responses and errors -/

/-- `respond` adds one response of code 0 and changes nothing else (R9, R82). -/
theorem State.respond_spec (s : State) (opc : Byte) (v : Word) :
    s.respond opc v = { s with responses := s.responses ++ [{ resp := respWord 0 opc, value := v }] } := rfl

/-- `raise` sets one error bit, adds one response with the error's code and value 0, and changes nothing else (R203). -/
theorem State.raise_spec (s : State) (e : ErrCode) (opc : Byte) :
    s.raise e opc = { s with
      errs := s.errs ||| e.bit, responses := s.responses ++ [{ resp := respWord e.code opc, value := 0 }] } := rfl

/-- `clearErrs` changes ERRS alone (R102). -/
theorem State.clearErrs_spec (s : State) : s.clearErrs = { s with errs := 0 } := rfl

/-- What selecting a width changes (R101). -/
theorem State.selectWidth_spec (s : State) (n : Nat) :
    s.selectWidth n = { s with
      w := BitVec.ofNat 4 n, disp := dispatch n, pAcc := 0, pOff := 0, uRem := 0, uOff := 0 } := rfl

/-- What a later reset changes (R220). -/
theorem State.warmReset_spec (s : State) :
    s.warmReset = { s with
      w := 8, disp := dispatch 8, pAcc := 0, pOff := 0, pPtr := 0, uPtr := 0, uRem := 0, uOff := 0, errs := 0 } := rfl

/-! ### Ranges and widths -/

theorem Memory.inRange_iff {m : Memory} {a n : Nat} : m.inRange a n = true ↔ n = 0 ∨ a + n ≤ m.size := by
  simp [Memory.inRange]

theorem Memory.inRange_one {m : Memory} {a : Nat} : m.inRange a 1 = true ↔ a < m.size := by
  rw [Memory.inRange_iff]; omega

theorem overlaps_iff {a n b m : Nat} : overlaps a n b m = true ↔ 0 < n ∧ 0 < m ∧ a < b + m ∧ b < a + n := by
  simp [overlaps, and_assoc]

theorem legalWidth_iff {n : Nat} : legalWidth n = true ↔ n = 1 ∨ n = 2 ∨ n = 4 ∨ n = 8 := by
  simp [legalWidth, or_assoc]

/-- The codec's checks, one case for each outcome, in the order of R181. -/
theorem Memory.codecCheck_spec (m : Memory) (src n dst k : Nat) :
    (m.codecCheck src n dst k = some .busError ∧ (m.inRange src n = false ∨ m.inRange dst k = false)) ∨
    (m.codecCheck src n dst k = some .overlap ∧ m.inRange src n = true ∧ m.inRange dst k = true ∧
      overlaps src n dst k = true) ∨
    (m.codecCheck src n dst k = none ∧ m.inRange src n = true ∧ m.inRange dst k = true ∧
      overlaps src n dst k = false) := by
  unfold Memory.codecCheck
  cases m.inRange src n <;> cases m.inRange dst k <;> cases overlaps src n dst k <;> simp

/-- A codec command does its work exactly when both ranges lie in `M` and share no byte (R181). -/
theorem Memory.codecCheck_none {m : Memory} {src n dst k : Nat} :
    m.codecCheck src n dst k = none ↔
      m.inRange src n = true ∧ m.inRange dst k = true ∧ overlaps src n dst k = false := by
  unfold Memory.codecCheck
  cases m.inRange src n <;> cases m.inRange dst k <;> cases overlaps src n dst k <;> simp

/-! ### The streaming packer and unpacker -/

/-- Appending a byte: written and answered with 1 where P_PTR is in `M`, else BusError (R121, R122). -/
theorem State.emitByte_spec (s : State) (b opc : Byte) :
    (s.pPtr.toNat < s.mem.size ∧ s.emitByte b opc = { s with
        mem := s.mem.write s.pPtr.toNat b, pAcc := 0, pOff := 0, pPtr := s.pPtr + 1,
        responses := s.responses ++ [{ resp := respWord 0 opc, value := 1 }] }) ∨
    (s.mem.size ≤ s.pPtr.toNat ∧ s.emitByte b opc = s.raise .busError opc) := by
  unfold State.emitByte
  split
  · next h => exact .inl ⟨Memory.inRange_one.mp h, rfl⟩
  · next h => exact .inr ⟨Nat.le_of_not_lt fun hl => h (Memory.inRange_one.mpr hl), rfl⟩

/-- Moving past a code: to the next byte where this byte is used up, else further on in it (R141). -/
theorem State.advanceUnpacker_spec (s : State) :
    (s.uOff.toNat + s.width = 8 ∧
      s.advanceUnpacker = { s with uPtr := s.uPtr + 1, uRem := s.uRem - 1, uOff := 0 }) ∨
    (s.uOff.toNat + s.width ≠ 8 ∧
      s.advanceUnpacker = { s with uOff := BitVec.ofNat 4 (s.uOff.toNat + s.width) }) := by
  unfold State.advanceUnpacker
  split
  · next h => exact .inl ⟨h, rfl⟩
  · next h => exact .inr ⟨h, rfl⟩

/-! ### The private packer of ENCODE -/

/-- One code into the private packer: a full byte is written and a new one begun, else the code waits (R182). -/
theorem State.packCode_spec (s : State) (r : PackRun) (c : Byte) :
    (r.off + s.width = 8 ∧ s.packCode r c =
      ⟨0, 0, r.ptr + 1, r.mem.write r.ptr (r.acc ||| (s.maskCode c <<< r.off))⟩) ∨
    (r.off + s.width ≠ 8 ∧ s.packCode r c =
      ⟨r.acc ||| (s.maskCode c <<< r.off), r.off + s.width, r.ptr, r.mem⟩) := by
  unfold State.packCode
  split
  · next h => exact .inl ⟨h, rfl⟩
  · next h => exact .inr ⟨h, rfl⟩

@[simp] theorem State.packCode_size (s : State) (r : PackRun) (c : Byte) :
    (s.packCode r c).mem.size = r.mem.size := by
  rcases s.packCode_spec r c with ⟨_, e⟩ | ⟨_, e⟩ <;> simp [e]

theorem State.packCode_wf (s : State) {r : PackRun} (h : r.mem.wf = true) (c : Byte) :
    (s.packCode r c).mem.wf = true := by
  rcases s.packCode_spec r c with ⟨_, e⟩ | ⟨_, e⟩
  · rw [e]; exact Memory.write_wf h _ _
  · rw [e]; exact h

theorem State.packCode_ptr_le (s : State) (r : PackRun) (c : Byte) : r.ptr ≤ (s.packCode r c).ptr := by
  rcases s.packCode_spec r c with ⟨_, e⟩ | ⟨_, e⟩ <;> simp [e]

/-- A code packed changes no byte but the one at the private pointer. -/
theorem State.packCode_frame (s : State) {r : PackRun} (h : r.mem.wf = true) (c : Byte) {a : Nat} (ha : a ≠ r.ptr) :
    (s.packCode r c).mem.read a = r.mem.read a := by
  rcases s.packCode_spec r c with ⟨_, e⟩ | ⟨_, e⟩
  · rw [e]; exact Memory.read_write_other h ha _
  · rw [e]

theorem State.encodeLoop_succ (s : State) (src k i : Nat) (r : PackRun) :
    s.encodeLoop src (k + 1) i r =
      s.encodeLoop src k (i + 1) (s.packCode r (s.quantize (r.mem.read (src + i)))) := rfl

@[simp] theorem State.encodeLoop_size (s : State) (src k i : Nat) (r : PackRun) :
    (s.encodeLoop src k i r).mem.size = r.mem.size := by
  induction k generalizing i r with
  | zero => rfl
  | succ k ih => rw [encodeLoop_succ, ih, packCode_size]

theorem State.encodeLoop_wf (s : State) (src k i : Nat) {r : PackRun} (h : r.mem.wf = true) :
    (s.encodeLoop src k i r).mem.wf = true := by
  induction k generalizing i r with
  | zero => exact h
  | succ k ih => exact ih (i + 1) (s.packCode_wf h _)

/-- The loop packs nothing below its pointer. -/
theorem State.encodeLoop_below (s : State) (src k i : Nat) {r : PackRun} (h : r.mem.wf = true) {a : Nat}
    (ha : a < r.ptr) : (s.encodeLoop src k i r).mem.read a = r.mem.read a := by
  induction k generalizing i r with
  | zero => rfl
  | succ k ih =>
    rw [encodeLoop_succ, ih (i + 1) (s.packCode_wf h _) (Nat.lt_of_lt_of_le ha (s.packCode_ptr_le r _)),
      s.packCode_frame h _ (by omega)]

/-- Where the private packer stands after `k` codes: the pointer and the offset count the bits packed (R25). -/
theorem State.encodeLoop_position (s : State) (hw : legalWidth s.width = true) (src k i : Nat) {r : PackRun}
    (hoff : r.off % s.width = 0) (hlt : r.off < 8) :
    (s.encodeLoop src k i r).ptr = r.ptr + (r.off + k * s.width) / 8 ∧
      (s.encodeLoop src k i r).off = (r.off + k * s.width) % 8 := by
  induction k generalizing i r with
  | zero => simp only [encodeLoop]; omega
  | succ k ih =>
    have hcases := legalWidth_iff.mp hw
    rw [encodeLoop_succ]
    rcases s.packCode_spec r (s.quantize (r.mem.read (src + i))) with ⟨he, e⟩ | ⟨he, e⟩
    · rw [e]
      obtain ⟨hp, ho⟩ := ih (i + 1) (r := ⟨0, 0, r.ptr + 1, _⟩) (Nat.zero_mod _) (Nat.zero_lt_succ 7)
      rw [hp, ho, Nat.succ_mul]
      constructor <;> simp only <;> omega
    · rw [e]
      have hmod : (r.off + s.width) % s.width = 0 := by rw [Nat.add_mod_right]; exact hoff
      have hlt' : r.off + s.width < 8 := by
        rcases hcases with h | h | h | h <;> rw [h] at he hoff ⊢ <;> omega
      obtain ⟨hp, ho⟩ := ih (i + 1) (r := ⟨_, r.off + s.width, r.ptr, r.mem⟩) hmod hlt'
      rw [hp, ho, Nat.succ_mul]
      constructor <;> simp only <;> omega

@[simp] theorem PackRun.commit_size (r : PackRun) : r.commit.size = r.mem.size := by
  unfold PackRun.commit; split <;> simp

theorem PackRun.commit_wf {r : PackRun} (h : r.mem.wf = true) : r.commit.wf = true := by
  unfold PackRun.commit
  split
  · exact Memory.write_wf h _ _
  · exact h

@[simp] theorem State.encodeMem_size (s : State) (src dst L : Nat) : (s.encodeMem src dst L).size = s.mem.size := by
  simp [State.encodeMem]

/-- ENCODE's work keeps the memory's canonical form. -/
theorem State.encodeMem_wf (s : State) (h : s.mem.wf = true) (src dst L : Nat) : (s.encodeMem src dst L).wf = true :=
  PackRun.commit_wf (s.encodeLoop_wf src L 0 h)

/-! ### The loop of DECODE and DECODE_RAW -/

theorem State.decodeLoop_succ (s : State) (src dst k j : Nat) (m : Memory) :
    s.decodeLoop src dst (k + 1) j m = s.decodeLoop src dst k (j + 1) (m.write (dst + j) (s.sampleAt m src j)) := rfl

@[simp] theorem State.decodeLoop_size (s : State) (src dst k j : Nat) (m : Memory) :
    (s.decodeLoop src dst k j m).size = m.size := by
  induction k generalizing j m with
  | zero => rfl
  | succ k ih => rw [decodeLoop_succ, ih, Memory.write_size]

/-- The work of DECODE and DECODE_RAW keeps the memory's canonical form. -/
theorem State.decodeLoop_wf (s : State) (src dst k j : Nat) {m : Memory} (h : m.wf = true) :
    (s.decodeLoop src dst k j m).wf = true := by
  induction k generalizing j m with
  | zero => exact h
  | succ k ih => exact ih (j + 1) (Memory.write_wf h _ _)

/-- The loop writes no byte outside the samples it is to write. -/
theorem State.decodeLoop_frame (s : State) (src dst k j : Nat) {m : Memory} (h : m.wf = true) {a : Nat}
    (ha : a < dst + j ∨ dst + j + k ≤ a) : (s.decodeLoop src dst k j m).read a = m.read a := by
  induction k generalizing j m with
  | zero => rfl
  | succ k ih =>
    rw [decodeLoop_succ, ih (j + 1) (Memory.write_wf h _ _) (by omega), Memory.read_write_other h (by omega)]

/-! ### The command port -/

/-- A packet's operand words are taken whole from the port (R75). -/
theorem takeWords_words (ws : List Word) (es : List HostEvent) :
    takeWords ws.length (ws.map .word ++ es) = some (ws, es) := by
  induction ws with
  | nil => cases es <;> rfl
  | cons w ws ih => simp [takeWords, ih]

/-- What taking words gives: they stood at the front of the port, as many as asked for. -/
theorem takeWords_spec {k : Nat} {es rest : List HostEvent} {ws : List Word} (h : takeWords k es = some (ws, rest)) :
    ws.length = k ∧ es = ws.map .word ++ rest := by
  induction k generalizing es ws with
  | zero => simp [takeWords] at h; simp [h]
  | succ k ih =>
    cases es with
    | nil => simp [takeWords] at h
    | cons e es =>
      cases e with
      | word w =>
        simp only [takeWords] at h
        split at h
        · next ws' rest' hk =>
          simp only [Option.some.injEq, Prod.mk.injEq] at h
          obtain ⟨rfl, rfl⟩ := h
          obtain ⟨hlen, hes⟩ := ih hk
          simp [hlen, hes]
        · simp at h
      | write a b => simp [takeWords] at h
      | reset => simp [takeWords] at h

/-- A whole packet at the front of the port is what the core takes next (R75). -/
theorem nextPending_packet (cw : Word) (ops : List Word) (es : List HostEvent)
    (h : ops.length = operandCount (opcField cw)) :
    nextPending ((cw :: ops).map .word ++ es) = .packet cw ops es := by
  simp only [List.map_cons, List.cons_append, nextPending, ← h, takeWords_words]

/-! ### One step -/

theorem step_idle {s : State} (h : s.input = []) : step s = .next s := by
  simp [step, h, nextPending]

theorem step_reset {s : State} {rest : List HostEvent} (h : s.input = .reset :: rest) :
    step s = .next (s.setInput rest).warmReset := by
  simp [step, h, nextPending]

theorem step_write {s : State} {a : Word} {b : Byte} {rest : List HostEvent} (h : s.input = .write a b :: rest) :
    step s = hostWrite a b (s.setInput rest) := by
  simp [step, h, nextPending]

theorem step_packet {s : State} {cw : Word} {ops : List Word} {rest : List HostEvent}
    (h : nextPending s.input = .packet cw ops rest) : step s = runPacket cw ops (s.setInput rest) := by
  unfold step; rw [h]

theorem runPacket_ok {cw : Word} {ops more : List Word} {i : Instr} (h : decode (cw :: ops) = .ok (i, more))
    (s : State) : runPacket cw ops s = exec i s := by
  unfold runPacket; rw [h]

theorem runPacket_error {cw : Word} {ops : List Word} {e : DecodeError} (h : decode (cw :: ops) = .error e)
    (s : State) : runPacket cw ops s = .next (s.illegal cw) := by
  unfold runPacket; rw [h]

/-- Everything a step that answers a next state can have done. -/
theorem step_next_cases {s t : State} (h : step s = .next t) :
    (s.input = [] ∧ t = s) ∨
    (∃ rest, s.input = .reset :: rest ∧ t = (s.setInput rest).warmReset) ∨
    (∃ a b rest, s.input = .write a b :: rest ∧ a.toNat < s.mem.size ∧
      t = (s.setInput rest).setMem (s.mem.write a.toNat b)) ∨
    (∃ cw ops rest i more, nextPending s.input = .packet cw ops rest ∧ decode (cw :: ops) = .ok (i, more) ∧
      exec i (s.setInput rest) = .next t) ∨
    (∃ cw ops rest e, nextPending s.input = .packet cw ops rest ∧ decode (cw :: ops) = .error e ∧
      t = (s.setInput rest).illegal cw) := by
  cases hin : s.input with
  | nil =>
    rw [step_idle hin] at h
    cases h
    exact .inl ⟨rfl, rfl⟩
  | cons e rest =>
    cases e with
    | reset =>
      rw [step_reset hin] at h
      cases h
      exact .inr (.inl ⟨rest, rfl, rfl⟩)
    | write a b =>
      rw [step_write hin, hostWrite] at h
      split at h
      · next hr =>
        cases h
        exact .inr (.inr (.inl ⟨a, b, rest, rfl, Memory.inRange_one.mp hr, rfl⟩))
      · cases h
    | word w =>
      cases hp : nextPending s.input with
      | packet cw ops rest' =>
        rw [step_packet hp] at h
        cases hd : decode (cw :: ops) with
        | ok im =>
          obtain ⟨i, more⟩ := im
          rw [runPacket_ok hd] at h
          exact .inr (.inr (.inr (.inl ⟨cw, ops, rest', i, more, by rw [← hin]; exact hp, hd, h⟩)))
        | error e =>
          rw [runPacket_error hd] at h
          cases h
          exact .inr (.inr (.inr (.inr ⟨cw, ops, rest', e, by rw [← hin]; exact hp, hd, rfl⟩)))
      | partialPacket => simp [step, hp] at h
      | idle => simp only [hin, nextPending] at hp; split at hp <;> cases hp
      | reset r => simp only [hin, nextPending] at hp; split at hp <;> cases hp
      | write a b r => simp only [hin, nextPending] at hp; split at hp <;> cases hp

end Sys2Proof.Machine
end

