-- ==== Sys2Proof/Laws/PerInstr.lean ====
section
/-! SUPPORT. Facts about every command as syntax, one lemma per constructor of Instr: the shape of its packet
(spec/30_encoding.md R71, R74, R75) and its assembler line (R79). -/

namespace Sys2Proof.Laws

/-! ### The packet's shape -/

/-- A command's packet begins with a command word that holds its opcode and a zero RSV field, and has as many operand
words as its opcode says. -/
def Encoding.Statement (i : Instr) : Prop :=
  ∃ cw ops, encode i = cw :: ops ∧ opcField cw = i.opcode ∧ rsvField cw = 0 ∧ ops.length = operandCount i.opcode

theorem opcField_commandWord (opc imm : Byte) : opcField (commandWord opc imm) = opc := by
  apply BitVec.eq_of_getLsbD_eq
  intro k hk
  have h32 : k < 32 := by omega
  simp [opcField, commandWord, hk, h32]

theorem immField_commandWord (opc imm : Byte) : immField (commandWord opc imm) = imm := by
  apply BitVec.eq_of_getLsbD_eq
  intro k hk
  have h32 : 8 + k < 32 := by omega
  simp [immField, commandWord, hk, h32]

theorem rsvField_commandWord (opc imm : Byte) : rsvField (commandWord opc imm) = 0 := by
  apply BitVec.eq_of_getLsbD_eq
  intro k hk
  have h8 : 8 ≤ 16 + k - 8 := by omega
  have h16 : 8 ≤ 16 + k := by omega
  simp [rsvField, commandWord, BitVec.getLsbD_of_ge imm _ h8, BitVec.getLsbD_of_ge opc _ h16]

theorem Encoding.nop : Encoding.Statement .nop :=
  ⟨_, _, rfl, opcField_commandWord _ _, rsvField_commandWord _ _, rfl⟩

theorem Encoding.setw (imm : Byte) : Encoding.Statement (.setw imm) :=
  ⟨_, _, rfl, opcField_commandWord _ _, rsvField_commandWord _ _, rfl⟩

theorem Encoding.clrerr : Encoding.Statement .clrerr :=
  ⟨_, _, rfl, opcField_commandWord _ _, rsvField_commandWord _ _, rfl⟩

theorem Encoding.stat : Encoding.Statement .stat :=
  ⟨_, _, rfl, opcField_commandWord _ _, rsvField_commandWord _ _, rfl⟩

theorem Encoding.rdpp : Encoding.Statement .rdpp :=
  ⟨_, _, rfl, opcField_commandWord _ _, rsvField_commandWord _ _, rfl⟩

theorem Encoding.rdup : Encoding.Statement .rdup :=
  ⟨_, _, rfl, opcField_commandWord _ _, rsvField_commandWord _ _, rfl⟩

theorem Encoding.rdur : Encoding.Statement .rdur :=
  ⟨_, _, rfl, opcField_commandWord _ _, rsvField_commandWord _ _, rfl⟩

theorem Encoding.qfwd (imm : Byte) : Encoding.Statement (.qfwd imm) :=
  ⟨_, _, rfl, opcField_commandWord _ _, rsvField_commandWord _ _, rfl⟩

theorem Encoding.qinv (imm : Byte) : Encoding.Statement (.qinv imm) :=
  ⟨_, _, rfl, opcField_commandWord _ _, rsvField_commandWord _ _, rfl⟩

theorem Encoding.pbind (dst : Word) : Encoding.Statement (.pbind dst) :=
  ⟨_, _, rfl, opcField_commandWord _ _, rsvField_commandWord _ _, rfl⟩

theorem Encoding.pack (imm : Byte) : Encoding.Statement (.pack imm) :=
  ⟨_, _, rfl, opcField_commandWord _ _, rsvField_commandWord _ _, rfl⟩

theorem Encoding.pcommit : Encoding.Statement .pcommit :=
  ⟨_, _, rfl, opcField_commandWord _ _, rsvField_commandWord _ _, rfl⟩

theorem Encoding.ubind (src len : Word) : Encoding.Statement (.ubind src len) :=
  ⟨_, _, rfl, opcField_commandWord _ _, rsvField_commandWord _ _, rfl⟩

theorem Encoding.unpack : Encoding.Statement .unpack :=
  ⟨_, _, rfl, opcField_commandWord _ _, rsvField_commandWord _ _, rfl⟩

theorem Encoding.ufin : Encoding.Statement .ufin :=
  ⟨_, _, rfl, opcField_commandWord _ _, rsvField_commandWord _ _, rfl⟩

theorem Encoding.encode (src dst L : Word) : Encoding.Statement (.encode src dst L) :=
  ⟨_, _, rfl, opcField_commandWord _ _, rsvField_commandWord _ _, rfl⟩

theorem Encoding.decode (src len dst count : Word) : Encoding.Statement (.decode src len dst count) :=
  ⟨_, _, rfl, opcField_commandWord _ _, rsvField_commandWord _ _, rfl⟩

theorem Encoding.decodeRaw (src len dst : Word) : Encoding.Statement (.decodeRaw src len dst) :=
  ⟨_, _, rfl, opcField_commandWord _ _, rsvField_commandWord _ _, rfl⟩

/-! ### The assembler line -/

/-- A command is well formed, and the line it is written as assembles to that command alone. -/
def Assembly.Statement (i : Instr) : Prop := i.wellFormed = true ∧ i.line.assemble = .ok [i]

theorem byte_le (b : Byte) : b.toNat ≤ 255 := Nat.le_of_lt_succ b.isLt

theorem word_le (w : Word) : w.toNat ≤ 4294967295 := Nat.le_of_lt_succ w.isLt

theorem Assembly.nop : Assembly.Statement .nop := ⟨rfl, rfl⟩

theorem Assembly.setw (imm : Byte) : Assembly.Statement (.setw imm) := by
  simp [Assembly.Statement, Instr.wellFormed, Instr.line, AsmLine.wellFormed, AsmLine.assemble, AsmLine.countOk, AsmLine.immOk, AsmLine.operandsOk,
    AsmLine.imm, AsmLine.operands, AsmLine.commands, AsmLine.immByte, Mnemonic.hasImm, Mnemonic.operandWords, byte_le imm]

theorem Assembly.clrerr : Assembly.Statement .clrerr := ⟨rfl, rfl⟩

theorem Assembly.stat : Assembly.Statement .stat := ⟨rfl, rfl⟩

theorem Assembly.rdpp : Assembly.Statement .rdpp := ⟨rfl, rfl⟩

theorem Assembly.rdup : Assembly.Statement .rdup := ⟨rfl, rfl⟩

theorem Assembly.rdur : Assembly.Statement .rdur := ⟨rfl, rfl⟩

theorem Assembly.qfwd (imm : Byte) : Assembly.Statement (.qfwd imm) := by
  simp [Assembly.Statement, Instr.wellFormed, Instr.line, AsmLine.wellFormed, AsmLine.assemble, AsmLine.countOk, AsmLine.immOk, AsmLine.operandsOk,
    AsmLine.imm, AsmLine.operands, AsmLine.commands, AsmLine.immByte, Mnemonic.hasImm, Mnemonic.operandWords, byte_le imm]

theorem Assembly.qinv (imm : Byte) : Assembly.Statement (.qinv imm) := by
  simp [Assembly.Statement, Instr.wellFormed, Instr.line, AsmLine.wellFormed, AsmLine.assemble, AsmLine.countOk, AsmLine.immOk, AsmLine.operandsOk,
    AsmLine.imm, AsmLine.operands, AsmLine.commands, AsmLine.immByte, Mnemonic.hasImm, Mnemonic.operandWords, byte_le imm]

theorem Assembly.pbind (dst : Word) : Assembly.Statement (.pbind dst) := by
  simp [Assembly.Statement, Instr.wellFormed, Instr.line, AsmLine.wellFormed, AsmLine.assemble, AsmLine.countOk, AsmLine.immOk, AsmLine.operandsOk,
    AsmLine.imm, AsmLine.operands, AsmLine.commands, AsmLine.word, Mnemonic.hasImm, Mnemonic.operandWords, word_le dst]

theorem Assembly.pack (imm : Byte) : Assembly.Statement (.pack imm) := by
  simp [Assembly.Statement, Instr.wellFormed, Instr.line, AsmLine.wellFormed, AsmLine.assemble, AsmLine.countOk, AsmLine.immOk, AsmLine.operandsOk,
    AsmLine.imm, AsmLine.operands, AsmLine.commands, AsmLine.immByte, Mnemonic.hasImm, Mnemonic.operandWords, byte_le imm]

theorem Assembly.pcommit : Assembly.Statement .pcommit := ⟨rfl, rfl⟩

theorem Assembly.ubind (src len : Word) : Assembly.Statement (.ubind src len) := by
  simp [Assembly.Statement, Instr.wellFormed, Instr.line, AsmLine.wellFormed, AsmLine.assemble, AsmLine.countOk, AsmLine.immOk, AsmLine.operandsOk,
    AsmLine.imm, AsmLine.operands, AsmLine.commands, AsmLine.word, Mnemonic.hasImm, Mnemonic.operandWords, word_le src, word_le len]

theorem Assembly.unpack : Assembly.Statement .unpack := ⟨rfl, rfl⟩

theorem Assembly.ufin : Assembly.Statement .ufin := ⟨rfl, rfl⟩

theorem Assembly.encode (src dst L : Word) : Assembly.Statement (.encode src dst L) := by
  simp [Assembly.Statement, Instr.wellFormed, Instr.line, AsmLine.wellFormed, AsmLine.assemble, AsmLine.countOk, AsmLine.immOk, AsmLine.operandsOk,
    AsmLine.imm, AsmLine.operands, AsmLine.commands, AsmLine.word, Mnemonic.hasImm, Mnemonic.operandWords, word_le src, word_le dst, word_le L]

theorem Assembly.decode (src len dst count : Word) : Assembly.Statement (.decode src len dst count) := by
  simp [Assembly.Statement, Instr.wellFormed, Instr.line, AsmLine.wellFormed, AsmLine.assemble, AsmLine.countOk, AsmLine.immOk, AsmLine.operandsOk,
    AsmLine.imm, AsmLine.operands, AsmLine.commands, AsmLine.word, Mnemonic.hasImm, Mnemonic.operandWords, word_le src, word_le len, word_le dst, word_le count]

theorem Assembly.decodeRaw (src len dst : Word) : Assembly.Statement (.decodeRaw src len dst) := by
  simp [Assembly.Statement, Instr.wellFormed, Instr.line, AsmLine.wellFormed, AsmLine.assemble, AsmLine.countOk, AsmLine.immOk, AsmLine.operandsOk,
    AsmLine.imm, AsmLine.operands, AsmLine.commands, AsmLine.word, Mnemonic.hasImm, Mnemonic.operandWords, word_le src, word_le len, word_le dst]

end Sys2Proof.Laws
end

