-- ==== Sys2Proof/Laws/Safety.lean ====
section
/-! SUPPORT. The statements' terms against the model's checks, and the cases of a legal width. -/

namespace Sys2Proof.Machine

/-- A state that passes the check meets the invariants. -/
theorem State.inv_of_check {s : State} (h : s.invCheck = true) : s.Inv := by
  simp only [State.invCheck, Bool.and_eq_true, Bool.or_eq_true, bne_iff_ne, beq_iff_eq, decide_eq_true_eq] at h
  obtain ⟨⟨⟨⟨⟨⟨⟨⟨⟨h1, h2⟩, h3⟩, h4⟩, h5⟩, h6⟩, h7⟩, h8⟩, h9⟩, h10⟩ := h
  refine ⟨h1, h2, h3, h4, h5, h6, h7, ?_, s.errs.isLt, ?_, h10⟩
  · intro hr
    rcases h8 with h8 | h8
    · exact absurd hr h8
    · exact h8
  · rcases Memory.inRange_iff.mp h9 with h9 | h9
    · exact .inl (BitVec.eq_of_toNat_eq h9)
    · exact .inr h9

theorem State.Inv.widthOk {s : State} (h : s.Inv) : s.WidthOk := ⟨h.width, h.disp⟩

/-- The four widths, as W and as N (R20). -/
theorem State.WidthOk.cases {s : State} (h : s.WidthOk) : s.w = 1 ∨ s.w = 2 ∨ s.w = 4 ∨ s.w = 8 := by
  have := legalWidth_iff.mp h.width
  unfold State.width at this
  rcases this with h | h | h | h
  · exact .inl (BitVec.eq_of_toNat_eq h)
  · exact .inr (.inl (BitVec.eq_of_toNat_eq h))
  · exact .inr (.inr (.inl (BitVec.eq_of_toNat_eq h)))
  · exact .inr (.inr (.inr (BitVec.eq_of_toNat_eq h)))

theorem State.WidthOk.mask {s : State} (h : s.WidthOk) : s.disp.mask = BitVec.ofNat 8 (2 ^ s.w.toNat - 1) := by
  rw [h.disp]; rfl

theorem State.WidthOk.shift {s : State} (h : s.WidthOk) : s.disp.shift = 8 - s.w.toNat := by
  rw [h.disp]; rfl

theorem State.WidthOk.scale {s : State} (h : s.WidthOk) : s.disp.scale = 255 / (2 ^ s.w.toNat - 1) := by
  rw [h.disp]; rfl

theorem State.WidthOk.cpb {s : State} (h : s.WidthOk) : s.disp.cpb = 8 / s.w.toNat := by
  rw [h.disp]; rfl

/-- `in_range` is what `Holds` says (R55). -/
theorem Memory.inRange_holds {m : Memory} {a n : Nat} : m.inRange a n = true ↔ m.Holds a n := Memory.inRange_iff

/-- `overlaps` fails exactly where the ranges are apart (R56). -/
theorem overlaps_apart {a n b k : Nat} : overlaps a n b k = false ↔ Apart a n b k := by
  rw [← Bool.not_eq_true, overlaps_iff]
  unfold Apart
  omega

/-- A codec command does its work exactly where both ranges lie in `M` and are apart (R181). -/
theorem Memory.codecCheck_none_iff {m : Memory} {src n dst k : Nat} :
    m.codecCheck src n dst k = none ↔ m.Holds src n ∧ m.Holds dst k ∧ Apart src n dst k := by
  rw [Memory.codecCheck_none, Memory.inRange_holds, Memory.inRange_holds, overlaps_apart]

end Sys2Proof.Machine
end

