-- ==== Sys2Proof/Tests/Slice0.lean ====
section
/-! SUPPORT. Tests: words written out from the spec's encoding, ill-formed lines the checks refuse, one step of each
command on small states with the values of spec/95_test_vectors.md and of the rules' examples, and for every statement
with hypotheses a state that meets them. -/

namespace Sys2Proof.Tests

open Sys2Proof.Machine

/-! ### Small states -/

/-- 95_test_vectors.md's memory of 0x1000 bytes, at width 4, with nothing in the packer and no buffer bound. -/
def at4 (cells : List Host.Cell) : State where
  w := 4
  disp := ⟨0x0F, 4, 17, 2⟩
  pAcc := 0
  pOff := 0
  pPtr := 0
  uPtr := 0
  uRem := 0
  uOff := 0
  errs := 0
  mem := ⟨0x1000, cells⟩
  invImpl := .lut
  input := []
  responses := []

/-- The same at width 2. -/
def at2 (cells : List Host.Cell) : State := { at4 cells with w := 2, disp := ⟨0x03, 6, 85, 4⟩ }

/-- The same at width 1. -/
def at1 (cells : List Host.Cell) : State := { at4 cells with w := 1, disp := ⟨0x01, 7, 255, 8⟩ }

/-- The same at width 8. -/
def at8 (cells : List Host.Cell) : State := { at4 cells with w := 8, disp := ⟨0xFF, 0, 1, 1⟩ }

/-- Width 2, with the packed byte 0x1B at 0x10. -/
def coded : State := at2 [(0x10, 0x1B)]

/-- One code in the packer of width 4, the next completing a byte for address `ptr`. -/
def halfFull (ptr : Word) : State := { at4 [] with pAcc := 0x0C, pOff := 4, pPtr := ptr }

/-- One byte bound at 0x100, width 4, the unpacker at bit `off`. -/
def bound (off : BitVec 4) : State := { at4 [(0x100, 0x3C)] with uPtr := 0x100, uRem := 1, uOff := off }

/-- The command's response. -/
def reply (i : Instr) (s : State) : Option (Nat × Nat) := (answer (exec i s)).map fun r => (r.resp.toNat, r.value.toNat)

/-- The cells of memory after the command. -/
def cellsAfter (i : Instr) (s : State) : Option (List Host.Cell) := (nextState (exec i s)).map (·.mem.cells)

/-- Does the outcome have a next state? -/
def goesOn (o : Host.Outcome State Fault Refusal) : Bool := (nextState o).isSome

/-! ### Decoding: every row's word, written out from R71 and R74 (examples of the rules named) -/

theorem test_decode_nop : decode [0x00000000#32] = .ok (.nop, []) := by decide -- R100
theorem test_decode_setw : decode [0x00000401#32] = .ok (.setw 4, []) := by decide -- R101
theorem test_decode_clrerr : decode [0x00000002#32] = .ok (.clrerr, []) := by decide -- R102
theorem test_decode_stat : decode [0x00000003#32] = .ok (.stat, []) := by decide -- R103
theorem test_decode_rdpp : decode [0x00000004#32] = .ok (.rdpp, []) := by decide -- R104
theorem test_decode_rdup : decode [0x00000005#32] = .ok (.rdup, []) := by decide -- R105
theorem test_decode_rdur : decode [0x00000006#32] = .ok (.rdur, []) := by decide -- R106
theorem test_decode_qfwd : decode [0x0000C810#32] = .ok (.qfwd 200, []) := by decide -- R160
theorem test_decode_qinv : decode [0x00000C11#32] = .ok (.qinv 12, []) := by decide -- R161
theorem test_decode_pbind : decode [0x00000020#32, 0x00000100#32] = .ok (.pbind 0x100, []) := by decide -- R120
theorem test_decode_pack : decode [0x00000321#32] = .ok (.pack 3, []) := by decide -- R121
theorem test_decode_pcommit : decode [0x00000022#32] = .ok (.pcommit, []) := by decide -- R122
theorem test_decode_ubind :
    decode [0x00000030#32, 0x00000100#32, 0x00000001#32] = .ok (.ubind 0x100 1, []) := by decide -- R140
theorem test_decode_unpack : decode [0x00000031#32] = .ok (.unpack, []) := by decide -- R141
theorem test_decode_ufin : decode [0x00000032#32] = .ok (.ufin, []) := by decide -- R142
theorem test_decode_encode : -- R81
    decode [0x00000040#32, 0x00000000#32, 0x00000020#32, 0x00000008#32] = .ok (.encode 0 0x20 8, []) := by decide
theorem test_decode_decode : -- program P2, step 3
    decode [0x00000041#32, 0x00000020#32, 0x00000001#32, 0x00000040#32, 0x00000008#32] =
      .ok (.decode 0x20 1 0x40 8, []) := by decide
theorem test_decode_decodeRaw : -- program P3, step 3
    decode [0x00000042#32, 0x00000010#32, 0x00000001#32, 0x00000020#32] = .ok (.decodeRaw 0x10 1 0x20, []) := by decide

/-- 95_test_vectors.md section 2.4: the illegal words, refused by name. -/
theorem test_decode_illegal :
    decode [0x00000099#32] = .error .unassignedOpcode ∧ decode [0x00010000#32] = .error .reservedBits ∧
    decode [0x00000500#32] = .error .nonzeroImmediate ∧ decode [0x00000122#32] = .error .nonzeroImmediate ∧
    decode [0x80000021#32] = .error .reservedBits ∧ decode [0x00000020#32] = .error .missingWords := by decide

/-- The reset values of DISP are DISPATCH(8), and the four rows of R22 are the formulas' values. -/
theorem test_dispatch : dispatch 1 = ⟨0x01, 7, 255, 8⟩ ∧ dispatch 2 = ⟨0x03, 6, 85, 4⟩ ∧
    dispatch 4 = ⟨0x0F, 4, 17, 2⟩ ∧ dispatch 8 = State.reset.disp := by decide

/-- D30: the word 0x00000C21 goes over a byte link as 21 0C 00 00. -/
theorem test_link : wordsOfLink [0x21, 0x0C, 0x00, 0x00] = [0x00000C21#32] := by decide

/-! ### Ill-formed lines (R79), one for each check -/

theorem test_line_ok : AsmLine.wellFormed ⟨.decode, [0x20, 1, 0x40, 8]⟩ = true := by decide
theorem test_line_count : AsmLine.countOk ⟨.pbind, []⟩ = false ∧ AsmLine.wellFormed ⟨.pbind, []⟩ = false := by decide
theorem test_line_imm : AsmLine.immOk ⟨.pack, [256]⟩ = false ∧ AsmLine.wellFormed ⟨.pack, [256]⟩ = false := by decide
theorem test_line_operand : AsmLine.operandsOk ⟨.pbind, [2 ^ 32]⟩ = false ∧
    AsmLine.wellFormed ⟨.pbind, [2 ^ 32]⟩ = false := by decide
theorem test_line_refused : AsmLine.assemble ⟨.pack, [256]⟩ = .error .immediateTooLarge ∧
    AsmLine.assemble ⟨.pbind, [2 ^ 32]⟩ = .error .operandTooLarge ∧
    AsmLine.assemble ⟨.nop, [1]⟩ = .error .wrongOperandCount := by decide

/-- R79's example `PBIND 0x100`, with a comment. -/
theorem test_text_pbind :
    parseLine ['P', 'B', 'I', 'N', 'D', ' ', '0', 'x', '1', '0', '0', ' ', ';', 'o'] =
      .ok (some ⟨.pbind, [0x100]⟩) := by decide
/-- R79's example `UBIND 0x100, 1`. -/
theorem test_text_ubind :
    parseLine ['U', 'B', 'I', 'N', 'D', ' ', '0', 'x', '1', '0', '0', ',', ' ', '1'] =
      .ok (some ⟨.ubind, [0x100, 1]⟩) := by decide
theorem test_text_refused : parseLine ['M', 'O', 'V'] = .error .unknownMnemonic ∧
    parseLine ['P', 'A', 'C', 'K', ' ', 'q'] = .error .badNumber := by decide

/-! ### Every row runs as the first command after reset -/

theorem test_first_command :
    [0x00, 0x01, 0x02, 0x03, 0x04, 0x05, 0x06, 0x10, 0x11, 0x20, 0x21, 0x22, 0x30, 0x31, 0x32, 0x40, 0x41, 0x42].all
      (fun w => goesOn (step (State.reset.withFetchWord 32 w)) && (decodeTableWord 32 w).isSome) = true := by decide

/-! ### One step of each command -/

theorem test_nop : reply .nop (at4 []) = some (0x00000000, 0) := by decide -- R100
theorem test_setw : (nextState (exec (.setw 4) (at8 []))).map (fun t => (t.w, t.disp)) =
    some (4, ⟨0x0F, 4, 17, 2⟩) := by decide -- R101
theorem test_setw_refused : reply (.setw 3) (at4 []) = some (0x00000101, 0) := by decide -- R101
theorem test_clrerr : (nextState (exec .clrerr { at4 [] with errs := 0b0100011 })).map (·.errs) = some 0 := by decide
theorem test_stat : -- 95_test_vectors.md section 2.3: N = 1 after seven PACKs
    reply .stat { at1 [] with pAcc := 0x25, pOff := 7, pPtr := 0x50 } = some (0x00000300, 0x00251071) := by decide
theorem test_stat_errs : -- program P3, step 13
    reply .stat { at2 [] with errs := 0b0100011 } = some (0x00000300, 0x23001002) := by decide
theorem test_rdpp : reply .rdpp (halfFull 0x101) = some (0x00000400, 0x101) := by decide -- R104
theorem test_rdup : reply .rdup (bound 0) = some (0x00000500, 0x100) := by decide -- R105
theorem test_rdur : reply .rdur { bound 0 with uRem := 3 } = some (0x00000600, 3) := by decide -- R106
theorem test_qfwd : reply (.qfwd 200) (at4 []) = some (0x00001000, 12) := by decide -- R160
theorem test_qfwd_top_bits : reply (.qfwd 191) (at2 []) = some (0x00001000, 2) := by decide -- section 3.1
theorem test_qinv : reply (.qinv 12) (at4 []) = some (0x00001100, 204) ∧
    reply (.qinv 12) { at4 [] with invImpl := .scale } = some (0x00001100, 204) := by decide -- R161
theorem test_qinv_refused : reply (.qinv 16) (at4 []) = some (0x00001107, 0) := by decide -- R161
theorem test_pbind : (nextState (exec (.pbind 0x100) (halfFull 7))).map (fun t => (t.pPtr, t.pAcc, t.pOff)) =
    some (0x100, 0, 0) := by decide -- R120
theorem test_pack : cellsAfter (.pack 3) (halfFull 0x100) = some [(0x100, 0x3C)] := by decide -- R121
theorem test_pack_masks : -- run K2
    (nextState (exec (.pack 0x1C) (at4 []))).map (fun t => (t.pAcc, t.pOff)) = some (0x0C, 4) := by decide
theorem test_pcommit : -- R122
    cellsAfter .pcommit { at2 [] with pAcc := 0x39, pOff := 6, pPtr := 0x50 } = some [(0x50, 0x39)] := by decide
theorem test_pcommit_bus_error : -- run K9
    reply .pcommit { at2 [] with pAcc := 1, pOff := 2, pPtr := 0x1000 } = some (0x00002204, 0) := by decide
theorem test_ubind : (nextState (exec (.ubind 0xFFF 1) (at8 []))).map (fun t => (t.uPtr, t.uRem, t.uOff)) =
    some (0xFFF, 1, 0) := by decide -- run U7
theorem test_ubind_bus_error : reply (.ubind 0xFFF 2) (at8 []) = some (0x00003004, 0) := by decide -- run U9
theorem test_unpack : reply .unpack (bound 0) = some (0x00003100, 12) := by decide -- R141
theorem test_unpack_last : -- R141: the second code, after which the buffer is finished
    reply .unpack (bound 4) = some (0x00003100, 3) ∧
    (nextState (exec .unpack (bound 4))).map (fun t => (t.uPtr, t.uRem, t.uOff)) = some (0x101, 0, 0) := by decide
theorem test_ufin : reply .ufin (bound 0) = some (0x00003200, 0) ∧ reply .ufin (at4 []) = some (0x00003200, 1) := by
  decide -- R142
theorem test_encode : -- run E5
    cellsAfter (.encode 0 0x10 9) (at1 [(0, 255), (2, 255), (3, 255), (7, 255), (8, 255)]) =
      some [(0, 255), (2, 255), (3, 255), (7, 255), (8, 255), (0x10, 0x8D), (0x11, 0x01)] := by decide
theorem test_encode_overlap : reply (.encode 0 2 8) (at2 []) = some (0x00004005, 0) := by decide -- run E7
theorem test_decode : -- run D1
    cellsAfter (.decode 0x10 1 0x30 3) coded =
      some [(0x10, 0x1B), (0x30, 255), (0x31, 170), (0x32, 85)] := by decide
theorem test_decode_order : -- run D6: Overlap is checked before CountOverrun
    reply (.decode 0x10 1 0x10 5) coded = some (0x00004105, 0) := by decide
theorem test_decodeRaw : -- run R3
    cellsAfter (.decodeRaw 0x10 1 0xFFC) coded =
      some [(0x10, 0x1B), (0xFFC, 255), (0xFFD, 170), (0xFFE, 85)] := by decide
theorem test_decodeRaw_bus_error : -- run R4
    reply (.decodeRaw 0x10 1 0xFFD) coded = some (0x00004204, 0) := by decide
/-- 95_test_vectors.md section 2.4: the packet 0x00000120, 0x00000100 is one packet, and leaves P_PTR. -/
theorem test_illegal_takes_its_operands :
    (nextState (step { at8 [] with input := [.word 0x120, .word 0x100] })).map
      (fun t => (t.input, t.pPtr, t.errs, t.responses)) = some ([], 0, 0b0000100, [⟨0x00002003, 0⟩]) := by decide

/-! ### Witnesses: states that meet the statements' hypotheses together -/

theorem inv_at4 : (at4 []).Inv := State.inv_of_check (by decide)
theorem inv_at2 : coded.Inv := State.inv_of_check (by decide)
theorem inv_at1 : (at1 [(0, 255)]).Inv := State.inv_of_check (by decide)
theorem inv_at8 : (at8 [(7, 200)]).Inv := State.inv_of_check (by decide)
theorem inv_bound : (bound 4).Inv := State.inv_of_check (by decide)

theorem witness_ResetGivesTheStatedValues : { at4 [] with input := [.reset] }.input = HostEvent.reset :: [] := rfl
theorem witness_LaterResetKeepsThePorts :
    { bound 4 with input := [.reset, .word 3] }.input = HostEvent.reset :: [.word 3] := rfl
theorem witness_StepKeepsTheInvariants :
    { halfFull 0xFFF with input := [.word 0x00000321] }.Inv ∧
      ∃ t, step { halfFull 0xFFF with input := [.word 0x00000321] } = .next t ∧ t.mem.cells = [(0xFFF, 0x3C)] :=
  ⟨State.inv_of_check (by decide), _, rfl, by decide⟩
theorem witness_ReachableStatesMeetTheInvariants :
    Reachable ((State.powerOn 1 (fun _ => 0) .lut).setInput ((State.powerOn 1 (fun _ => 0) .lut).input ++ [.word 0x401])) :=
  .host _ _ (.powerOn 1 _ _ (by decide) (by decide))
theorem witness_StepKeepsTheParameters :
    ∃ t, step { at2 [] with input := [.write 0 7] } = .next t ∧ t.mem.cells = [(0, 7)] := ⟨_, rfl, by decide⟩
theorem witness_EncodingIsTheOnlyPacketOfACommand :
    decode [0x00000030#32, 0xFFFFFFFF#32, 0#32, 5#32] = .ok (.ubind 0xFFFFFFFF 0, [5]) := by decide
theorem witness_PacketLengthFollowsFromTheOpcodeAlone :
    [1#32, 2#32, 3#32, 4#32].length = packetOperands ((0x00010541#32 : Word).extractLsb' 0 8) ∧
    ([] : List Word).length = packetOperands ((0x000000FF#32 : Word).extractLsb' 0 8) := by decide
theorem witness_PacketIsACommandExactlyWhenLegal :
    [5#32].length = packetOperands ((0x00000020#32 : Word).extractLsb' 0 8) ∧ ¬ IllegalWord 0x00000020#32 ∧
    [5#32].length = packetOperands ((0x00000120#32 : Word).extractLsb' 0 8) ∧ IllegalWord 0x00000120#32 := by decide
/-- One for each item of R76, the last with its operand word. -/
theorem witness_IllegalWordRaisesIllegalCommand :
    IllegalWord 0x00000007#32 ∧ IllegalWord 0x00010000#32 ∧ IllegalWord 0x00000120#32 ∧
    [5#32].length = packetOperands ((0x00000120#32 : Word).extractLsb' 0 8) ∧
    { at8 [] with input := [.word 0x120, .word 5] }.input = [0x120#32, 5#32].map HostEvent.word ++ [] := by decide
theorem witness_StepRunsTheDecodedCommand :
    [0x100#32].length = packetOperands ((0x00000020#32 : Word).extractLsb' 0 8) ∧
    { at8 [] with input := [.word 0x20, .word 0x100, .reset] }.input =
      [0x20#32, 0x100#32].map HostEvent.word ++ [.reset] ∧
    decode [0x20#32, 0x100#32] = .ok (.pbind 0x100, []) ∧
    encode (.pbind 0x100) = [0x20#32, 0x100#32] := by decide
theorem witness_PseudoCommandsExpandToTwoCommands :
    (3 : Byte) ∉ [1#8, 2#8, 4#8, 8#8] ∧ (0 : Byte) ∉ [1#8, 2#8, 4#8, 8#8] ∧ (255 : Byte) ∉ [1#8, 2#8, 4#8, 8#8] := by
  decide
theorem witness_AssemblerRefusesNumbersTooLarge :
    Mnemonic.encw.hasImm = true ∧ [0, 0, 0].length = Mnemonic.encw.operandWords ∧ 255 < 256 ∧
    AsmLine.countOk ⟨.ubind, [0, 2 ^ 32]⟩ = true ∧ AsmLine.immOk ⟨.ubind, [0, 2 ^ 32]⟩ = true ∧
    ∃ v ∈ AsmLine.operands ⟨.ubind, [0, 2 ^ 32]⟩, 2 ^ 32 - 1 < v := by decide
theorem witness_SetwSelectsALegalWidthOrRefuses : (9 : Byte) ∉ [1#8, 2#8, 4#8, 8#8] := by decide
theorem witness_QfwdKeepsTheTopBits : (at4 []).WidthOk ∧ (at1 [(0, 255)]).WidthOk := ⟨inv_at4.widthOk, inv_at1.widthOk⟩
/-- The last code of width 4 and the first value above it. -/
theorem witness_QinvScalesACodeOrRefuses :
    (at4 []).WidthOk ∧ (15 : Byte).toNat ≤ 2 ^ (at4 []).w.toNat - 1 ∧ ¬ (16 : Byte).toNat ≤ 2 ^ (at4 []).w.toNat - 1 :=
  ⟨inv_at4.widthOk, by decide, by decide⟩
theorem witness_WidthEightIsLossless : (at8 [(7, 200)]).WidthOk ∧ (at8 [(7, 200)]).w = 8#4 := ⟨inv_at8.widthOk, rfl⟩
theorem witness_LutAndScalingAgree : coded.WidthOk := inv_at2.widthOk
theorem witness_QuantizersAreMonotone :
    coded.WidthOk ∧ (2 : Byte).toNat ≤ (3 : Byte).toNat ∧
      (3 : Byte).toNat ≤ 2 ^ coded.w.toNat - 1 := ⟨inv_at2.widthOk, by decide, by decide⟩
theorem witness_LargestCodeReconstructsTo255 : (at4 []).WidthOk := inv_at4.widthOk
theorem witness_ReconstructionErrorIsBounded : (at1 [(0, 255)]).WidthOk := inv_at1.widthOk
theorem witness_QuantizingAReconstructedCodeGivesItBack :
    (at4 []).WidthOk ∧ (15 : Byte).toNat ≤ 2 ^ (at4 []).w.toNat - 1 := ⟨inv_at4.widthOk, by decide⟩
/-- A code that leaves the byte partial; one that completes it for the last byte of `M`, and for the first past it. -/
theorem witness_PackAddsOneCode :
    ((at4 []).Inv ∧ (at4 []).pOff.toNat + (at4 []).w.toNat ≠ 8) ∧
    ((halfFull 0xFFF).Inv ∧ (halfFull 0xFFF).pOff.toNat + (halfFull 0xFFF).w.toNat = 8 ∧
      (halfFull 0xFFF).pPtr.toNat < (halfFull 0xFFF).mem.size) ∧
    ((halfFull 0x1000).Inv ∧ (halfFull 0x1000).pOff.toNat + (halfFull 0x1000).w.toNat = 8 ∧
      (halfFull 0x1000).mem.size ≤ (halfFull 0x1000).pPtr.toNat) :=
  ⟨⟨inv_at4, by decide⟩, ⟨State.inv_of_check (by decide), by decide, by decide⟩,
    ⟨State.inv_of_check (by decide), by decide, by decide⟩⟩
theorem witness_PcommitFlushesThePartialByte :
    ((at4 []).mem.wf = true ∧ (at4 []).pOff = 0) ∧
    ((halfFull 0xFFF).mem.wf = true ∧ (halfFull 0xFFF).pOff ≠ 0 ∧
      (halfFull 0xFFF).pPtr.toNat < (halfFull 0xFFF).mem.size) ∧
    ((halfFull 0x1000).mem.wf = true ∧ (halfFull 0x1000).pOff ≠ 0 ∧
      (halfFull 0x1000).mem.size ≤ (halfFull 0x1000).pPtr.toNat) := by decide
/-- Three codes of width 4 in the last two bytes of `M`. -/
theorem witness_PackingSessionWritesTheCodes :
    (at4 []).Inv ∧ ceilDiv ([1#8, 2#8, 3#8].length * (at4 []).w.toNat) 8 ≤ 2 ^ 32 ∧
    ∀ k : Nat, k < ceilDiv ([1#8, 2#8, 3#8].length * (at4 []).w.toNat) 8 →
      ((0xFFE#32).toNat + k) % 2 ^ 32 < (at4 []).mem.size := ⟨inv_at4, by decide, by decide⟩
/-- The clause that binds and the one that refuses, at the end of `M`, and an empty buffer at the last address. -/
theorem witness_UbindBindsARangeOfMemory :
    (0xFFE#32).toNat + (2#32).toNat ≤ (at4 []).mem.size ∧ (0#32 = 0#32 ∨ (0xFFFFFFFF#32).toNat + 0 ≤ (at4 []).mem.size) ∧
    ¬ (2#32 = 0#32 ∨ (0xFFF#32).toNat + (2#32).toNat ≤ (at4 []).mem.size) := by decide
theorem witness_UnpackTakesTheNextCode :
    ((at4 []).Inv ∧ (at4 []).uRem = 0) ∧
    ((bound 0).Inv ∧ (bound 0).uRem ≠ 0 ∧ (bound 0).uOff.toNat + (bound 0).w.toNat ≠ 8) ∧
    ((bound 4).Inv ∧ (bound 4).uRem ≠ 0 ∧ (bound 4).uOff.toNat + (bound 4).w.toNat = 8) :=
  ⟨⟨inv_at4, rfl⟩, ⟨State.inv_of_check (by decide), by decide, by decide⟩, ⟨inv_bound, by decide, by decide⟩⟩
theorem witness_UfinTellsWhetherUnpackWillSucceed : (bound 4).Inv ∧ (bound 4).uRem ≠ 0 := ⟨inv_bound, by decide⟩
theorem witness_UnpackingSessionReadsEveryCode :
    coded.Inv ∧ coded.mem.Holds (0xFFF#32).toNat (1#32).toNat ∧
      3 < (1#32).toNat * (8 / coded.w.toNat) := ⟨inv_at2, by decide, by decide⟩
theorem witness_PackedCodesUnpackInOrder :
    (at4 []).Inv ∧ ceilDiv ([1#8, 2#8, 3#8].length * (at4 []).w.toNat) 8 < 2 ^ 32 ∧
    (at4 []).mem.Holds (0xFFE#32).toNat (ceilDiv ([1#8, 2#8, 3#8].length * (at4 []).w.toNat) 8) ∧
    3 < ceilDiv ([1#8, 2#8, 3#8].length * (at4 []).w.toNat) 8 * (8 / (at4 []).w.toNat) :=
  ⟨inv_at4, by decide, by decide, by decide⟩
/-- Nine samples of width 1 packed to the last two bytes of `M`. -/
theorem witness_EncodePacksTheQuantizedSamples :
    (at1 [(0, 255)]).Inv ∧ (at1 [(0, 255)]).mem.Holds (0xFF5#32).toNat (9#32).toNat ∧
    (at1 [(0, 255)]).mem.Holds (0xFFE#32).toNat (ceilDiv ((9#32).toNat * (at1 [(0, 255)]).w.toNat) 8) ∧
    Apart (0xFF5#32).toNat (9#32).toNat (0xFFE#32).toNat (ceilDiv ((9#32).toNat * (at1 [(0, 255)]).w.toNat) 8) :=
  ⟨inv_at1, by decide, by decide, by decide⟩
theorem witness_DecodeWritesTheReconstructedSamples :
    coded.Inv ∧ coded.mem.Holds (0x10#32).toNat (1#32).toNat ∧
    coded.mem.Holds (0xFFC#32).toNat (4#32).toNat ∧
    Apart (0x10#32).toNat (1#32).toNat (0xFFC#32).toNat (4#32).toNat ∧
    (4#32).toNat ≤ (1#32).toNat * (8 / coded.w.toNat) :=
  ⟨inv_at2, by decide, by decide, by decide, by decide⟩
theorem witness_DecodeRawWritesEverySample :
    coded.Inv ∧ coded.mem.Holds (0x10#32).toNat (1#32).toNat ∧
    coded.mem.Holds (0x11#32).toNat ((1#32).toNat * (8 / coded.w.toNat)) ∧
    Apart (0x10#32).toNat (1#32).toNat (0x11#32).toNat ((1#32).toNat * (8 / coded.w.toNat)) :=
  ⟨inv_at2, by decide, by decide, by decide⟩
/-- The three clauses of ENCODE (4 samples) and of DECODE_RAW (1 byte) at width 2, at the end of `M` and of the source. -/
theorem witness_CodecChecksComeInOrder_encode :
    coded.WidthOk ∧
    ¬ (coded.mem.Holds (0xFFD#32).toNat (4#32).toNat ∧ coded.mem.Holds 0 (ceilDiv ((4#32).toNat * coded.w.toNat) 8)) ∧
    (coded.mem.Holds 0 (4#32).toNat ∧ coded.mem.Holds 3 (ceilDiv ((4#32).toNat * coded.w.toNat) 8) ∧
      ¬ Apart 0 (4#32).toNat 3 (ceilDiv ((4#32).toNat * coded.w.toNat) 8)) :=
  ⟨inv_at2.widthOk, by decide, by decide⟩
theorem witness_CodecChecksComeInOrder_decode :
    coded.WidthOk ∧
    ¬ (coded.mem.Holds 0x10 1 ∧ coded.mem.Holds (0xFFE#32).toNat (3#32).toNat) ∧
    (coded.mem.Holds 0x10 1 ∧ coded.mem.Holds 0x0D 4 ∧ ¬ Apart 0x10 1 0x0D 4) ∧
    (coded.mem.Holds 0x10 1 ∧ coded.mem.Holds 0x20 5 ∧ Apart 0x10 1 0x20 5 ∧ 1 * (8 / coded.w.toNat) < 5) :=
  ⟨inv_at2.widthOk, by decide, by decide, by decide⟩
theorem witness_CodecChecksComeInOrder_decodeRaw :
    coded.WidthOk ∧
    ¬ (coded.mem.Holds 0x10 1 ∧ coded.mem.Holds 0xFFD (1 * (8 / coded.w.toNat))) ∧
    (coded.mem.Holds 0x10 1 ∧ coded.mem.Holds 0x0D (1 * (8 / coded.w.toNat)) ∧
      ¬ Apart 0x10 1 0x0D (1 * (8 / coded.w.toNat))) :=
  ⟨inv_at2.widthOk, by decide, by decide⟩
theorem witness_CodecLeavesTheStreamingStateAlone : (Instr.decode 0x10 1 0x30 3).isCodec = true := rfl
theorem witness_EncodeThenDecodeReconstructs :
    (at8 [(7, 200)]).Inv ∧ (at8 [(7, 200)]).mem.Holds 7 1 ∧ (at8 [(7, 200)]).mem.Holds 0xFFF (ceilDiv (1 * (at8 [(7, 200)]).w.toNat) 8) ∧
    (at8 [(7, 200)]).mem.Holds 8 1 ∧ Apart 7 1 0xFFF (ceilDiv (1 * (at8 [(7, 200)]).w.toNat) 8) ∧ Apart 0xFFF (ceilDiv (1 * (at8 [(7, 200)]).w.toNat) 8) 8 1 ∧
    (at8 [(7, 200)]).w = 8#4 := ⟨inv_at8, by decide, by decide, by decide, by decide, by decide, rfl⟩
theorem witness_DecodedBufferEncodesToTheSameBytes :
    coded.Inv ∧ coded.mem.Holds 0x10 1 ∧ coded.mem.Holds 0x20 (1 * (8 / coded.w.toNat)) ∧
    coded.mem.Holds 0xFFF 1 ∧ Apart 0x10 1 0x20 (1 * (8 / coded.w.toNat)) ∧ Apart 0x20 (1 * (8 / coded.w.toNat)) 0xFFF 1 :=
  ⟨inv_at2, by decide, by decide, by decide, by decide, by decide⟩
theorem witness_EncodeAgreesWithThePackingSession :
    (at4 []).Inv ∧ (at4 []).mem.Holds 0 3 ∧ (at4 []).mem.Holds 3 (ceilDiv (3 * (at4 []).w.toNat) 8) ∧ Apart 0 3 3 (ceilDiv (3 * (at4 []).w.toNat) 8) :=
  ⟨inv_at4, by decide, by decide, by decide⟩
theorem witness_DecodeAgreesWithTheUnpackingSession :
    coded.Inv ∧ coded.mem.Holds 0x10 1 ∧ coded.mem.Holds 0x11 3 ∧
    Apart 0x10 1 0x11 3 ∧ 3 ≤ 1 * (8 / coded.w.toNat) ∧ 2 < 3 :=
  ⟨inv_at2, by decide, by decide, by decide, by decide, by decide⟩
theorem witness_EncodeSplitsAtWholeBytes :
    coded.Inv ∧ (4#32).toNat % (8 / coded.w.toNat) = 0 ∧
    (4#32).toNat + (3#32).toNat < 2 ^ 32 ∧ coded.mem.Holds 0 (4 + 3) ∧
    coded.mem.Holds 0xFFE (ceilDiv ((4 + 3) * coded.w.toNat) 8) ∧ Apart 0 (4 + 3) 0xFFE (ceilDiv ((4 + 3) * coded.w.toNat) 8) :=
  ⟨inv_at2, by decide, by decide, by decide, by decide, by decide⟩
/-- A command that fails, and one that does not. -/
theorem witness_ErrorChangesOnlyItsBit :
    (∃ t, exec (.qinv 16) (at4 []) = .next t ∧ t.responses = [⟨0x00001107, 0⟩]) ∧
    ∃ t, exec .clrerr { at4 [] with errs := 1 } = .next t ∧ t.errs = 0 := ⟨⟨_, rfl, by decide⟩, _, rfl, by decide⟩
theorem witness_CommandsRaiseOnlyTheirErrors :
    ∃ t, exec (.decode 0x10 1 0x20 5) (at2 []) = .next t ∧ t.responses = [⟨0x00004106, 0⟩] := ⟨_, rfl, by decide⟩
theorem witness_EveryCommandFinishesWithAResponse : (bound 4).Inv := inv_bound
theorem witness_StickyErrorBitsChangeNoCommand : Instr.clrerr ≠ .stat ∧ Instr.setw 3 ≠ .stat := by decide
theorem witness_OnlySetwWritesTheWidth :
    (∃ t, exec (.setw 1) (at4 []) = .next t ∧ t.w = 1) ∧ ∃ t, exec (.pack 1) (at4 []) = .next t ∧ t.w = 4 :=
  ⟨⟨_, rfl, rfl⟩, _, rfl, rfl⟩
theorem witness_UnitsOwnTheirState :
    (∃ t, exec (.pack 3) (halfFull 0) = .next t) ∧ (Instr.pack 3).isPacker = true ∧
    (∃ t, exec .unpack (bound 4) = .next t) ∧ Instr.unpack.isUnpacker = true ∧
    (∃ t, exec (.encode 0 0x20 2) (at4 []) = .next t) ∧ (Instr.encode 0 0x20 2).isCodec = true :=
  ⟨⟨_, rfl⟩, rfl, ⟨_, rfl⟩, rfl, ⟨_, rfl⟩, rfl⟩
theorem witness_OnlyTheListedCommandsWriteMemory :
    (∃ t, exec .unpack (bound 4) = .next t) ∧ Instr.unpack.isCodec = false ∧ (∀ c, Instr.unpack ≠ .pack c) ∧
    Instr.unpack ≠ .pcommit := ⟨⟨_, rfl⟩, rfl, fun _ => Instr.noConfusion, by decide⟩
theorem witness_HostWriteIsSeenByAHostRead :
    { at4 [] with input := [.write 0xFFF 0] }.mem.wf = true ∧
    { at4 [] with input := [.write 0xFFF 0] }.input = HostEvent.write 0xFFF 0 :: [] ∧
    (0xFFF#32).toNat < (at4 []).mem.size := by decide
theorem witness_UnpackSeesAHostWrite :
    { bound 4 with input := [.write 0x100 0xFF, .word 0x31] }.Inv ∧ (bound 4).uRem ≠ 0 ∧
    { bound 4 with input := [.write 0x100 0xFF, .word 0x31] }.input =
      HostEvent.write (bound 4).uPtr 0xFF :: .word 0x00000031#32 :: [] :=
  ⟨State.inv_of_check (by decide), by decide, by decide⟩
theorem witness_AccessesOutsideMemoryFault :
    ({ at4 [] with input := [.write 0x1000 1] }.input = HostEvent.write 0x1000 1 :: [] ∧
      (at4 []).mem.size ≤ (0x1000#32).toNat) ∧
    ({ bound 0 with uPtr := 0x1000 }.uRem ≠ 0 ∧
      { bound 0 with uPtr := 0x1000 }.mem.size ≤ { bound 0 with uPtr := 0x1000 }.uPtr.toNat) := by decide
theorem witness_CoreWaitsForTheHost : (at4 []).input = [] := rfl
theorem witness_PartialPacketIsRefused :
    [1#32, 2#32, 3#32].length < packetOperands ((0x00000041#32 : Word).extractLsb' 0 8) ∧
    { at4 [] with input := [.word 0x41, .word 1, .word 2, .word 3] }.input =
      [0x41#32, 1#32, 2#32, 3#32].map HostEvent.word := by decide

end Sys2Proof.Tests
end

section
/-! PROOF. No step changes the parameters that the spec leaves open (spec/00_scope.md R6): MEM_SIZE, which is the size
of `M` (R50, R141), and INV_IMPL. Registers and responses hold neither, so the proof turns on the stores to `M`, which
change its cells alone. -/

namespace Sys2Proof.Machine

/-- The states `s` and `t` belong to one implementation: the open parameters of R6 that a state carries are the same. -/
def State.SameParams (s t : State) : Prop := t.mem.size = s.mem.size ∧ t.invImpl = s.invImpl

/-! ### What the shared operations keep -/

/-- An answer with code 0 keeps the parameters (R9). -/
theorem State.respond_sameParams (s : State) (opc : Byte) (v : Word) : s.SameParams (s.respond opc v) := by
  rw [State.respond_spec]; exact ⟨rfl, rfl⟩

/-- An error keeps the parameters (R203). -/
theorem State.raise_sameParams (s : State) (e : ErrCode) (opc : Byte) : s.SameParams (s.raise e opc) := by
  rw [State.raise_spec]; exact ⟨rfl, rfl⟩

theorem State.warmReset_sameParams (s : State) : s.SameParams s.warmReset := by
  rw [State.warmReset_spec]; exact ⟨rfl, rfl⟩

theorem State.selectWidth_sameParams (s : State) (n : Nat) : s.SameParams (s.selectWidth n) := by
  rw [State.selectWidth_spec]; exact ⟨rfl, rfl⟩

/-- A new memory keeps the parameters when it has the size of the old one. -/
theorem State.setMem_sameParams (s : State) {m : Memory} (h : m.size = s.mem.size) : s.SameParams (s.setMem m) :=
  ⟨h, rfl⟩

/-- Appending a byte keeps the parameters, whether it is written or refused with BusError (R121, R122). -/
theorem State.emitByte_sameParams (s : State) (b opc : Byte) : s.SameParams (s.emitByte b opc) := by
  obtain ⟨-, hwritten⟩ | ⟨-, hrefused⟩ := s.emitByte_spec b opc
  · rw [hwritten]; exact ⟨Memory.write_size s.mem s.pPtr.toNat b, rfl⟩
  · rw [hrefused]; exact s.raise_sameParams .busError opc

theorem State.advanceUnpacker_sameParams (s : State) : s.SameParams s.advanceUnpacker := by
  obtain ⟨-, hnext⟩ | ⟨-, hwithin⟩ := s.advanceUnpacker_spec
  · rw [hnext]; exact ⟨rfl, rfl⟩
  · rw [hwithin]; exact ⟨rfl, rfl⟩

/-- What keeps the parameters keeps them when it answers. -/
theorem State.SameParams.respond {s t : State} (h : s.SameParams t) (opc : Byte) (v : Word) :
    s.SameParams (t.respond opc v) := by
  obtain ⟨hsize, himpl⟩ := h
  obtain ⟨hsize', himpl'⟩ := t.respond_sameParams opc v
  exact ⟨hsize'.trans hsize, himpl'.trans himpl⟩

/-! ### What every command keeps -/

theorem execSetw_sameParams {imm : Byte} {s t : State} (h : execSetw imm s = .next t) : s.SameParams t := by
  cases h
  split
  · exact (s.selectWidth_sameParams imm.toNat).respond opcSetw 0
  · exact s.raise_sameParams .invalidWidth opcSetw

theorem execQinv_sameParams {imm : Byte} {s t : State} (h : execQinv imm s = .next t) : s.SameParams t := by
  cases h
  split
  · exact s.raise_sameParams .codeRange opcQinv
  · exact s.respond_sameParams opcQinv _

theorem execPack_sameParams {imm : Byte} {s t : State} (h : execPack imm s = .next t) : s.SameParams t := by
  cases h
  split
  · exact s.emitByte_sameParams _ opcPack
  · exact ⟨rfl, rfl⟩

theorem execPcommit_sameParams {s t : State} (h : execPcommit s = .next t) : s.SameParams t := by
  cases h
  split
  · exact s.emitByte_sameParams s.pAcc opcPcommit
  · exact s.respond_sameParams opcPcommit 0

theorem execUbind_sameParams {src len : Word} {s t : State} (h : execUbind src len s = .next t) :
    s.SameParams t := by
  cases h
  split
  · exact ⟨rfl, rfl⟩
  · exact s.raise_sameParams .busError opcUbind

theorem execUnpack_sameParams {s t : State} (h : execUnpack s = .next t) : s.SameParams t := by
  unfold execUnpack at h
  split at h
  · cases h; exact s.raise_sameParams .bufferUnderrun opcUnpack
  · split at h
    · cases h; exact s.advanceUnpacker_sameParams.respond opcUnpack _
    · cases h

/-- ENCODE stores codes and keeps the parameters (R182). -/
theorem execEncode_sameParams {src dst L : Word} {s t : State} (h : execEncode src dst L s = .next t) :
    s.SameParams t := by
  cases h
  split
  · exact s.raise_sameParams _ opcEncode
  · exact (s.setMem_sameParams (s.encodeMem_size _ _ _)).respond opcEncode _

/-- DECODE stores samples and keeps the parameters (R183). -/
theorem execDecode_sameParams {src len dst count : Word} {s t : State}
    (h : execDecode src len dst count s = .next t) : s.SameParams t := by
  cases h
  split
  · exact s.raise_sameParams _ opcDecode
  · split
    · exact s.raise_sameParams .countOverrun opcDecode
    · exact (s.setMem_sameParams (s.decodeLoop_size _ _ _ _ _)).respond opcDecode count

/-- DECODE_RAW stores samples and keeps the parameters (R184). -/
theorem execDecodeRaw_sameParams {src len dst : Word} {s t : State} (h : execDecodeRaw src len dst s = .next t) :
    s.SameParams t := by
  cases h
  split
  · exact s.raise_sameParams _ opcDecodeRaw
  · exact (s.setMem_sameParams (s.decodeLoop_size _ _ _ _ _)).respond opcDecodeRaw _

/-- Every command that answers keeps the parameters. The commands of the first case answer from every state and write
registers alone. -/
theorem exec_sameParams {i : Instr} {s t : State} (h : exec i s = .next t) : s.SameParams t := by
  cases i with
  | nop | clrerr | stat | rdpp | rdup | rdur | qfwd _ | pbind _ | ufin => cases h; exact ⟨rfl, rfl⟩
  | setw imm => exact execSetw_sameParams h
  | qinv imm => exact execQinv_sameParams h
  | pack imm => exact execPack_sameParams h
  | pcommit => exact execPcommit_sameParams h
  | ubind src len => exact execUbind_sameParams h
  | unpack => exact execUnpack_sameParams h
  | encode src dst L => exact execEncode_sameParams h
  | decode src len dst count => exact execDecode_sameParams h
  | decodeRaw src len dst => exact execDecodeRaw_sameParams h

/-! ### What every step keeps -/

/-- Taking something from the port changes no parameter, so what is kept from there on is kept from before. -/
theorem State.sameParams_setInput {s t : State} {es : List HostEvent} :
    (s.setInput es).SameParams t ↔ s.SameParams t := Iff.rfl

/-- Every step that answers keeps the parameters, whatever it takes from the host. -/
theorem step_sameParams {s t : State} (h : step s = .next t) : s.SameParams t := by
  obtain ⟨-, rfl⟩ | ⟨rest, -, rfl⟩ | ⟨a, b, rest, -, -, rfl⟩ | ⟨cw, ops, rest, i, more, -, -, hexec⟩ |
    ⟨cw, ops, rest, e, -, -, rfl⟩ := step_next_cases h
  · exact ⟨rfl, rfl⟩
  · exact State.sameParams_setInput.mp (s.setInput rest).warmReset_sameParams
  · exact State.sameParams_setInput.mp ((s.setInput rest).setMem_sameParams (Memory.write_size s.mem a.toNat b))
  · exact State.sameParams_setInput.mp (exec_sameParams hexec)
  · exact State.sameParams_setInput.mp ((s.setInput rest).raise_sameParams .illegalCommand (opcField cw))

/-- Settles O6: whatever a step takes from the host, MEM_SIZE and INV_IMPL stay (R6, R141). -/
theorem stepKeepsTheParameters : Obligations.StepKeepsTheParameters := fun _ _ => step_sameParams

end Sys2Proof.Machine
end

section
/-! PROOF. What a command that answers has done, said once for every command (spec/60_exceptions.md R203, 00_scope.md
R9): it has raised one error and changed nothing else, or it has done its work and answered with code 0. The invariants
(R34), the frame of the width (R20) and the frames of the two streaming units (R35) are read off this one case list. -/

namespace Sys2Proof.Machine

/-- A byte appended to the packer's output, before the answer (R121, R122). -/
def State.storeByte (s : State) (b : Byte) : State :=
  (s.setMem (s.mem.write s.pPtr.toNat b)).setPacker 0 0 (s.pPtr + 1)

/-- The accumulator with the masked code in it at the packer's offset (R121). -/
def State.accWith (s : State) (imm : Byte) : Byte := s.pAcc ||| (s.maskCode imm <<< s.pOff.toNat)

/-- The packer after a code that leaves its byte partial (R121). -/
def State.insertCode (s : State) (imm : Byte) : State :=
  s.setPacker (s.accWith imm) (BitVec.ofNat 4 (s.pOff.toNat + s.width)) s.pPtr

/-- `s.Effect i u`: where command `i` succeeds from `s`, `u` is the state that its work leaves, before the answer. It is a
bound on the work: `answerOnly` does not say which commands only answer, and the codec's work is given by what the
invariants ask of the memory it leaves. -/
inductive State.Effect (s : State) : Instr → State → Prop where
  | answerOnly (i : Instr) : s.Effect i s
  | setw {imm : Byte} (legal : legalWidth imm.toNat = true) : s.Effect (.setw imm) (s.selectWidth imm.toNat)
  | clrerr : s.Effect .clrerr s.clearErrs
  | pbind (dst : Word) : s.Effect (.pbind dst) (s.setPacker 0 0 dst)
  | packPartial {imm : Byte} (room : s.pOff.toNat + s.width ≠ 8) : s.Effect (.pack imm) (s.insertCode imm)
  | packFull {imm : Byte} (full : s.pOff.toNat + s.width = 8) (fits : s.pPtr.toNat < s.mem.size) :
      s.Effect (.pack imm) (s.storeByte (s.accWith imm))
  | pcommit (partialByte : 0 < s.pOff.toNat) (fits : s.pPtr.toNat < s.mem.size) :
      s.Effect .pcommit (s.storeByte s.pAcc)
  | ubind {src len : Word} (fits : s.mem.inRange src.toNat len.toNat = true) :
      s.Effect (.ubind src len) (s.setUnpacker src len 0)
  | unpack (left : s.uRem ≠ 0) : s.Effect .unpack s.advanceUnpacker
  | codec {i : Instr} {m : Memory} (codec : i.isCodec = true) (size : m.size = s.mem.size)
      (wf : s.mem.wf = true → m.wf = true) : s.Effect i (s.setMem m)

/-- The two ways in which command `i`, executed at `s`, can have ended in `t` (R9, R203). -/
def State.Ends (s : State) (i : Instr) (t : State) : Prop :=
  (∃ e, t = s.raise e i.opcode) ∨ ∃ u v, s.Effect i u ∧ t = u.respond i.opcode v

theorem State.ends_raise (s : State) (i : Instr) (e : ErrCode) : s.Ends i (s.raise e i.opcode) := .inl ⟨e, rfl⟩

theorem State.Effect.ends {s u : State} {i : Instr} (h : s.Effect i u) (v : Word) :
    s.Ends i (u.respond i.opcode v) := .inr ⟨u, v, h, rfl⟩

/-- A command that appends a byte ends in one of the two ways: BusError, or the byte stored at an address of `M`. -/
theorem State.ends_emitByte {s : State} {i : Instr} {b : Byte}
    (h : s.pPtr.toNat < s.mem.size → s.Effect i (s.storeByte b)) : s.Ends i (s.emitByte b i.opcode) := by
  obtain ⟨fits, hstored⟩ | ⟨-, hrefused⟩ := s.emitByte_spec b i.opcode
  · rw [hstored]; exact (h fits).ends 1
  · rw [hrefused]; exact s.ends_raise i .busError

theorem execSetw_ends {imm : Byte} {s t : State} (h : execSetw imm s = .next t) : s.Ends (.setw imm) t := by
  cases h
  split
  · next legal => exact (State.Effect.setw legal).ends 0
  · exact s.ends_raise (.setw imm) .invalidWidth

theorem execQinv_ends {imm : Byte} {s t : State} (h : execQinv imm s = .next t) : s.Ends (.qinv imm) t := by
  cases h
  split
  · exact s.ends_raise (.qinv imm) .codeRange
  · exact (State.Effect.answerOnly (.qinv imm)).ends _

theorem execPack_ends {imm : Byte} {s t : State} (h : execPack imm s = .next t) : s.Ends (.pack imm) t := by
  cases h
  split
  · next full => exact State.ends_emitByte (i := .pack imm) (.packFull full)
  · next room => exact (State.Effect.packPartial (imm := imm) room).ends 0

theorem execPcommit_ends {s t : State} (h : execPcommit s = .next t) : s.Ends .pcommit t := by
  cases h
  split
  · next partialByte => exact State.ends_emitByte (i := .pcommit) (.pcommit partialByte)
  · exact (State.Effect.answerOnly .pcommit).ends 0

theorem execUbind_ends {src len : Word} {s t : State} (h : execUbind src len s = .next t) :
    s.Ends (.ubind src len) t := by
  cases h
  split
  · next fits => exact (State.Effect.ubind fits).ends 0
  · exact s.ends_raise (.ubind src len) .busError

theorem execUnpack_ends {s t : State} (h : execUnpack s = .next t) : s.Ends .unpack t := by
  unfold execUnpack at h
  split at h
  · cases h; exact s.ends_raise .unpack .bufferUnderrun
  · next left =>
    split at h
    · cases h; exact (State.Effect.unpack left).ends _
    · cases h

theorem execEncode_ends {src dst L : Word} {s t : State} (h : execEncode src dst L s = .next t) :
    s.Ends (.encode src dst L) t := by
  cases h
  split
  · exact s.ends_raise (.encode src dst L) _
  · exact (State.Effect.codec (i := .encode src dst L) rfl (s.encodeMem_size _ _ _)
      fun hwf => s.encodeMem_wf hwf _ _ _).ends _

/-- The loop of DECODE and DECODE_RAW is work of the codec. -/
theorem State.effect_decodeLoop (s : State) {i : Instr} (hcodec : i.isCodec = true) (src dst k : Nat) :
    s.Effect i (s.setMem (s.decodeLoop src dst k 0 s.mem)) :=
  .codec hcodec (s.decodeLoop_size src dst k 0 s.mem) fun hwf => s.decodeLoop_wf src dst k 0 hwf

theorem execDecode_ends {src len dst count : Word} {s t : State} (h : execDecode src len dst count s = .next t) :
    s.Ends (.decode src len dst count) t := by
  cases h
  split
  · exact s.ends_raise (.decode src len dst count) _
  · split
    · exact s.ends_raise (.decode src len dst count) .countOverrun
    · exact (s.effect_decodeLoop (i := .decode src len dst count) rfl _ _ _).ends count

theorem execDecodeRaw_ends {src len dst : Word} {s t : State} (h : execDecodeRaw src len dst s = .next t) :
    s.Ends (.decodeRaw src len dst) t := by
  cases h
  split
  · exact s.ends_raise (.decodeRaw src len dst) _
  · exact (s.effect_decodeLoop (i := .decodeRaw src len dst) rfl _ _ _).ends _

/-- Every command that answers has raised an error, or done its work and answered. -/
theorem exec_ends {i : Instr} {s t : State} (h : exec i s = .next t) : s.Ends i t := by
  cases i with
  | nop | stat | rdpp | rdup | rdur | qfwd _ | ufin => cases h; exact (State.Effect.answerOnly _).ends _
  | clrerr => cases h; exact State.Effect.clrerr.ends 0
  | pbind dst => cases h; exact (State.Effect.pbind dst).ends 0
  | setw imm => exact execSetw_ends h
  | qinv imm => exact execQinv_ends h
  | pack imm => exact execPack_ends h
  | pcommit => exact execPcommit_ends h
  | ubind src len => exact execUbind_ends h
  | unpack => exact execUnpack_ends h
  | encode src dst L => exact execEncode_ends h
  | decode src len dst count => exact execDecode_ends h
  | decodeRaw src len dst => exact execDecodeRaw_ends h

end Sys2Proof.Machine
end

section
/-! PROOF. The invariants of spec/10_state.md R34: power-on meets them and every step keeps them, so every reachable
state meets them. The two facts that carry the proof are that an offset which does not fill its byte stays below 8 and a
multiple of N, and that a masked code shifted to the offset fits below the next one. -/

namespace Sys2Proof.Machine

/-! ### Updates that keep the invariants -/

/-- A legal width with its row, an empty packer and no bound buffer meet the invariants: what power-on, a later reset and
SETW set up (R101, R220). -/
theorem State.WidthOk.inv_of_fresh {s : State} (hw : s.WidthOk) (hacc : s.pAcc = 0) (hoff : s.pOff = 0)
    (hrem : s.uRem = 0) (huoff : s.uOff = 0) (hmem : s.mem.wf = true) : s.Inv where
  width := hw.width
  disp := hw.disp
  pOff_mod := by simp [hoff]
  pOff_lt := by simp [hoff]
  pAcc_lt := by simp [hacc]
  uOff_mod := by simp [huoff]
  uOff_lt := by simp [huoff]
  uOff_fin _ := huoff
  errs_lt := s.errs.isLt
  bound := .inl hrem
  mem_wf := hmem

/-- The packer's three registers may take any values that meet R34 items 2 and 3. -/
theorem State.Inv.setPacker {s : State} (h : s.Inv) {a : Byte} {o : BitVec 4} (p : Word)
    (hmod : o.toNat % s.width = 0) (hlt : o.toNat < 8) (hacc : a.toNat < 2 ^ o.toNat) : (s.setPacker a o p).Inv :=
  { h with pOff_mod := hmod, pOff_lt := hlt, pAcc_lt := hacc }

/-- The unpacker's three registers may take any values that meet R34 items 4 and 5 and R140's range check. -/
theorem State.Inv.setUnpacker {s : State} (h : s.Inv) {p r : Word} {o : BitVec 4} (hmod : o.toNat % s.width = 0)
    (hlt : o.toNat < 8) (hfin : r = 0 → o = 0) (hbound : r = 0 ∨ p.toNat + r.toNat ≤ s.mem.size) :
    (s.setUnpacker p r o).Inv :=
  { h with uOff_mod := hmod, uOff_lt := hlt, uOff_fin := hfin, bound := hbound }

/-- A new memory of the same size in canonical form. -/
theorem State.Inv.setMem {s : State} (h : s.Inv) {m : Memory} (hsize : m.size = s.mem.size) (hwf : m.wf = true) :
    (s.setMem m).Inv :=
  { h with
    bound := by rw [State.setMem_mem, hsize]; exact h.bound
    mem_wf := hwf }

theorem State.Inv.setErrs {s : State} (h : s.Inv) (e : BitVec 7) : (s.setErrs e).Inv := { h with errs_lt := e.isLt }

theorem State.Inv.setInput {s : State} (h : s.Inv) (es : List HostEvent) : (s.setInput es).Inv := { h with }

theorem State.Inv.addResponse {s : State} (h : s.Inv) (r : Response) : (s.addResponse r).Inv := { h with }

theorem State.Inv.respond {s : State} (h : s.Inv) (opc : Byte) (v : Word) : (s.respond opc v).Inv := h.addResponse _

theorem State.Inv.raise {s : State} (h : s.Inv) (e : ErrCode) (opc : Byte) : (s.raise e opc).Inv :=
  (h.setErrs _).addResponse _

/-! ### Power-on, reset and SETW -/

/-- The row of width 8 is the one that R220 writes out. -/
theorem dispatch_eight : dispatch 8 = ⟨0xFF#8, 0, 1, 1⟩ := by decide

theorem State.widthOk_powerOn (size : Nat) (init : Word → Byte) (impl : InvImpl) :
    (State.powerOn size init impl).WidthOk := ⟨rfl, dispatch_eight.symm⟩

/-- Power-on meets the invariants, for every value of the open parameters (R34, R220). -/
theorem State.inv_powerOn {size : Nat} (h1 : 1 ≤ size) (h2 : size ≤ 2 ^ 32) (init : Word → Byte) (impl : InvImpl) :
    (State.powerOn size init impl).Inv :=
  (State.widthOk_powerOn size init impl).inv_of_fresh rfl rfl rfl rfl (Memory.initial_wf h1 h2 init)

theorem State.inv_warmReset {s : State} (hmem : s.mem.wf = true) : s.warmReset.Inv :=
  State.WidthOk.inv_of_fresh ⟨rfl, rfl⟩ rfl rfl rfl rfl hmem

/-- A legal width fits the four bits of W. -/
theorem legalWidth_mod {n : Nat} (h : legalWidth n = true) : n % 2 ^ 4 = n := by
  obtain rfl | rfl | rfl | rfl := legalWidth_iff.mp h <;> rfl

theorem State.selectWidth_width (s : State) {n : Nat} (h : legalWidth n = true) : (s.selectWidth n).width = n := by
  rw [State.selectWidth_spec, State.width, BitVec.toNat_ofNat, legalWidth_mod h]

/-- SETW leaves a legal width and its row (R101). -/
theorem State.widthOk_selectWidth (s : State) {n : Nat} (h : legalWidth n = true) : (s.selectWidth n).WidthOk where
  width := by rw [s.selectWidth_width h]; exact h
  disp := by rw [s.selectWidth_width h]; rfl

theorem State.Inv.selectWidth {s : State} (h : s.Inv) {n : Nat} (hn : legalWidth n = true) : (s.selectWidth n).Inv :=
  (s.widthOk_selectWidth hn).inv_of_fresh rfl rfl rfl rfl h.mem_wf

/-! ### Offsets and codes -/

/-- Past a code that does not fill the byte, the offset is again a multiple of N below 8 (R25, R28). -/
theorem offset_add_width {n o : Nat} (hn : legalWidth n = true) (hmod : o % n = 0) (hlt : o < 8) (hne : o + n ≠ 8) :
    (o + n) % n = 0 ∧ o + n < 8 := by
  refine ⟨by rw [Nat.add_mod_right]; exact hmod, ?_⟩
  obtain rfl | rfl | rfl | rfl := legalWidth_iff.mp hn <;> omega

/-- An offset below 8 is kept in four bits as it is. -/
theorem offset_toNat {k : Nat} (h : k < 8) : (BitVec.ofNat 4 k).toNat = k := by
  rw [BitVec.toNat_ofNat]; omega

/-- A masked code has N bits (R121). -/
theorem State.WidthOk.maskCode_lt {s : State} (h : s.WidthOk) (imm : Byte) : (s.maskCode imm).toNat < 2 ^ s.width := by
  have hpos : 0 < 2 ^ s.width := Nat.two_pow_pos s.width
  have hmask : s.disp.mask.toNat ≤ 2 ^ s.width - 1 := by
    rw [h.mask, BitVec.toNat_ofNat]; exact Nat.mod_le _ _
  have hand : (s.maskCode imm).toNat ≤ s.disp.mask.toNat := by
    rw [State.maskCode, BitVec.toNat_and]; exact Nat.and_le_right
  omega

/-- A code of `n` bits inserted at offset `o` keeps the accumulator below the next offset (R34 item 3). -/
theorem insert_lt {acc code : Byte} {o n : Nat} (hacc : acc.toNat < 2 ^ o) (hcode : code.toNat < 2 ^ n) :
    (acc ||| (code <<< o)).toNat < 2 ^ (o + n) := by
  rw [BitVec.toNat_or, BitVec.toNat_shiftLeft, Nat.shiftLeft_eq]
  refine Nat.or_lt_two_pow (hacc.trans_le (Nat.pow_le_pow_right (by decide) (Nat.le_add_right o n))) ?_
  calc code.toNat * 2 ^ o % 2 ^ 8 ≤ code.toNat * 2 ^ o := Nat.mod_le _ _
    _ < 2 ^ n * 2 ^ o := Nat.mul_lt_mul_of_pos_right hcode (Nat.two_pow_pos o)
    _ = 2 ^ (o + n) := by rw [← Nat.pow_add, Nat.add_comm]

/-! ### The work of a command keeps the invariants -/

theorem State.Inv.insertCode {s : State} (h : s.Inv) (imm : Byte) (room : s.pOff.toNat + s.width ≠ 8) :
    (s.insertCode imm).Inv := by
  obtain ⟨hmod, hlt⟩ := offset_add_width h.width h.pOff_mod h.pOff_lt room
  have hoff := offset_toNat hlt
  refine h.setPacker s.pPtr ?_ ?_ ?_
  · rw [hoff]; exact hmod
  · rw [hoff]; exact hlt
  · rw [hoff]; exact insert_lt h.pAcc_lt (h.widthOk.maskCode_lt imm)

/-- An appended byte leaves the packer empty and the memory canonical (R121, R122). -/
theorem State.Inv.storeByte {s : State} (h : s.Inv) (b : Byte) : (s.storeByte b).Inv :=
  (h.setMem (Memory.write_size _ _ _) (Memory.write_wf h.mem_wf _ _)).setPacker (s.pPtr + 1) (Nat.zero_mod _)
    (by decide) (by decide)

/-- The byte moved past was bound, so the bytes left still lie in `M`: U_PTR does not wrap before the last (R140, R141). -/
theorem State.Inv.bound_tail {s : State} (h : s.Inv) (left : s.uRem ≠ 0) :
    s.uRem - 1 = 0 ∨ (s.uPtr + 1).toNat + (s.uRem - 1).toNat ≤ s.mem.size := by
  obtain ⟨-, hsize, -⟩ := Memory.wf_iff.mp h.mem_wf
  have hbound := h.bound.resolve_left left
  bv_omega

theorem State.Inv.advanceUnpacker {s : State} (h : s.Inv) (left : s.uRem ≠ 0) : s.advanceUnpacker.Inv := by
  unfold State.advanceUnpacker
  split
  · exact h.setUnpacker (Nat.zero_mod _) (by decide) (fun _ => rfl) (h.bound_tail left)
  · next within =>
    obtain ⟨hmod, hlt⟩ := offset_add_width h.width h.uOff_mod h.uOff_lt within
    have hoff := offset_toNat hlt
    refine h.setUnpacker ?_ ?_ (fun hfin => absurd hfin left) h.bound
    · rw [hoff]; exact hmod
    · rw [hoff]; exact hlt

/-- UBIND's range check is the bound that R140 promises to every later UNPACK. -/
theorem State.Inv.bind {s : State} (h : s.Inv) {src len : Word} (fits : s.mem.inRange src.toNat len.toNat = true) :
    (s.setUnpacker src len 0).Inv :=
  h.setUnpacker (Nat.zero_mod _) (by decide) (fun _ => rfl)
    ((Memory.inRange_iff.mp fits).imp_left BitVec.eq_of_toNat_eq)

theorem State.Effect.inv {s u : State} {i : Instr} (heff : s.Effect i u) (h : s.Inv) : u.Inv := by
  cases heff with
  | answerOnly => exact h
  | setw legal => exact h.selectWidth legal
  | clrerr => exact h.setErrs 0
  | pbind dst => exact h.setPacker dst (Nat.zero_mod _) (by decide) (by decide)
  | packPartial room => exact h.insertCode _ room
  | packFull full fits => exact h.storeByte _
  | pcommit partialByte fits => exact h.storeByte s.pAcc
  | ubind fits => exact h.bind fits
  | unpack left => exact h.advanceUnpacker left
  | codec _ size wf => exact h.setMem size (wf h.mem_wf)

/-! ### Commands, steps and runs -/

/-- Every command that answers keeps the invariants, whether it succeeded or raised an error (R34). -/
theorem State.Inv.exec {s t : State} {i : Instr} (h : s.Inv) (hexec : exec i s = .next t) : t.Inv := by
  obtain ⟨e, rfl⟩ | ⟨u, v, heff, rfl⟩ := exec_ends hexec
  · exact h.raise e i.opcode
  · exact (heff.inv h).respond i.opcode v

theorem State.Inv.step {s t : State} (h : s.Inv) (hstep : step s = .next t) : t.Inv := by
  obtain ⟨-, rfl⟩ | ⟨rest, -, rfl⟩ | ⟨a, b, rest, -, -, rfl⟩ | ⟨cw, ops, rest, i, more, -, -, hexec⟩ |
    ⟨cw, ops, rest, e, -, -, rfl⟩ := step_next_cases hstep
  · exact h
  · exact State.inv_warmReset h.mem_wf
  · exact (h.setInput rest).setMem (Memory.write_size _ _ _) (Memory.write_wf h.mem_wf _ _)
  · exact (h.setInput rest).exec hexec
  · exact (h.setInput rest).raise .illegalCommand (opcField cw)

/-- The induction over a run: power-on, the host's actions and the steps (R233). -/
theorem Reachable.inv {s : State} (h : Reachable s) : s.Inv := by
  induction h with
  | powerOn size init impl h1 h2 => exact State.inv_powerOn h1 h2 init impl
  | host s es _ ih => exact ih.setInput (s.input ++ es)
  | step s t _ hstep ih => exact ih.step hstep

/-- Settles O3: the reset state is power-on at the opaque parameters, whose size is a size of R6. -/
theorem resetSatisfiesTheInvariants : Obligations.ResetSatisfiesTheInvariants :=
  State.inv_powerOn memSize_bounds.1 memSize_bounds.2 Config.memInit Config.invImpl

/-- Settles O4, over what the step took from the host and, for a packet, over the work of its command. -/
theorem stepKeepsTheInvariants : Obligations.StepKeepsTheInvariants := fun _ _ h hstep => h.step hstep

/-- Settles O5, by induction over the run. -/
theorem reachableStatesMeetTheInvariants : Obligations.ReachableStatesMeetTheInvariants := fun _ hreach =>
  have h := hreach.inv
  ⟨h.widthOk.cases, h.disp, h.pOff_mod, h.pOff_lt, h.pAcc_lt, h.uOff_mod, h.uOff_lt, h.uOff_fin, h.errs_lt⟩

end Sys2Proof.Machine
end

section
/-! PROOF. The status word (spec/10_state.md R30). It is an OR of fields placed at their bit offsets, so a read of bits
gives the field that stands there and zeros where none does. -/

namespace Sys2Proof.Machine

/-- A field placed at bit `k` of a word is read back there. -/
theorem extractLsb'_placed {n k : Nat} (a : BitVec n) (h : k + n ≤ 32) :
    ((a.setWidth 32) <<< k).extractLsb' k n = a := by
  apply BitVec.eq_of_getLsbD_eq
  intro j hj
  have hlt : k + j < 32 := by omega
  simp [hj, hlt]

/-- A field placed at bit `k` of a word leaves zeros below and above it. -/
theorem extractLsb'_placed_of_apart {n k i m : Nat} (a : BitVec n) (h : i + m ≤ k ∨ k + n ≤ i) :
    ((a.setWidth 32) <<< k).extractLsb' i m = 0#m := by
  apply BitVec.eq_of_getLsbD_eq
  intro j hj
  obtain below | above := h
  · have hlt : i + j < k := by omega
    simp [hlt]
  · have hout : n ≤ i + j - k := by omega
    simp [BitVec.getLsbD_of_ge a _ hout]

/-- The status word with every field, W too, as a placed one. -/
theorem State.statusWord_eq (s : State) : s.statusWord =
    s.w.setWidth 32 <<< 0 ||| (s.pOff.setWidth 32 <<< 4) ||| (s.uOff.setWidth 32 <<< 8) |||
      (s.fin.setWidth 32 <<< 12) ||| (s.pAcc.setWidth 32 <<< 16) ||| (s.errs.setWidth 32 <<< 24) := by
  rw [State.statusWord, BitVec.shiftLeft_zero]

/-- What any bits of the status word read: the same bits of each placed field. -/
theorem State.statusWord_extract (s : State) (i m : Nat) : s.statusWord.extractLsb' i m =
    (s.w.setWidth 32 <<< 0).extractLsb' i m ||| (s.pOff.setWidth 32 <<< 4).extractLsb' i m |||
      (s.uOff.setWidth 32 <<< 8).extractLsb' i m ||| (s.fin.setWidth 32 <<< 12).extractLsb' i m |||
      (s.pAcc.setWidth 32 <<< 16).extractLsb' i m ||| (s.errs.setWidth 32 <<< 24).extractLsb' i m := by
  simp only [State.statusWord_eq, BitVec.extractLsb'_or]

/-- Settles O20: at each field's place that field is read, and at the two reserved places every field reads as zero. -/
theorem statAnswersTheStatusWord : Obligations.StatAnswersTheStatusWord := by
  intro s
  refine ⟨s.statusWord, rfl, ?_, ?_, ?_, (?_ : _ = s.fin), ?_, ?_, ?_, ?_⟩ <;>
    simp only [State.statusWord_extract, extractLsb'_placed, extractLsb'_placed_of_apart, BitVec.or_zero,
      BitVec.zero_or, Nat.reduceAdd, Nat.reduceLeDiff, true_or, or_true]

end Sys2Proof.Machine
end

section
/-! PROOF. The sticky bits are written and never read by a command other than STAT (spec/10_state.md R31,
60_exceptions.md R204). Two states that differ in earlier error bits alone are related by `State.addErrs`; every
operation the commands share commutes with it, hence every command does. -/

namespace Sys2Proof.Machine

/-- The state with the bits `e` set in ERRS beside those that are. -/
def State.addErrs (s : State) (e : BitVec 7) : State := s.setErrs (e ||| s.errs)

section addErrs

variable (s : State) (e : BitVec 7)

@[simp] theorem State.addErrs_uPtr : (s.addErrs e).uPtr = s.uPtr := rfl
@[simp] theorem State.addErrs_uRem : (s.addErrs e).uRem = s.uRem := rfl
@[simp] theorem State.addErrs_uOff : (s.addErrs e).uOff = s.uOff := rfl
@[simp] theorem State.addErrs_mem : (s.addErrs e).mem = s.mem := rfl
@[simp] theorem State.addErrs_codeAt (b : Byte) (o : Nat) : (s.addErrs e).codeAt b o = s.codeAt b o := rfl
@[simp] theorem State.addErrs_packedBytes (L : Word) : (s.addErrs e).packedBytes L = s.packedBytes L := rfl
@[simp] theorem State.addErrs_codesIn (len : Word) : (s.addErrs e).codesIn len = s.codesIn len := rfl

/-! ### The operations commute with earlier error bits -/

/-- An error adds its bit to whatever is set (R31). -/
theorem State.raise_addErrs (c : ErrCode) (opc : Byte) : (s.addErrs e).raise c opc = (s.raise c opc).addErrs e := by
  have hbits : e ||| s.errs ||| c.bit = e ||| (s.errs ||| c.bit) := BitVec.or_assoc ..
  simp only [State.raise, State.addErrs, State.setErrs, State.addResponse, hbits]

/-- What chooses between two states without looking at ERRS commutes where both choices do. -/
theorem State.ite_addErrs {c : Prop} [Decidable c] {a b a' b' : State} {e : BitVec 7} (ha : a' = a.addErrs e)
    (hb : b' = b.addErrs e) : (if c then a' else b') = (if c then a else b).addErrs e := by
  rw [ha, hb]; exact (apply_ite (·.addErrs e) c a b).symm

theorem State.emitByte_addErrs (b opc : Byte) : (s.addErrs e).emitByte b opc = (s.emitByte b opc).addErrs e :=
  ite_addErrs rfl (s.raise_addErrs e .busError opc)

theorem State.advanceUnpacker_addErrs : (s.addErrs e).advanceUnpacker = s.advanceUnpacker.addErrs e :=
  ite_addErrs rfl rfl

@[simp] theorem State.encodeLoop_addErrs (src k i : Nat) (r : PackRun) :
    (s.addErrs e).encodeLoop src k i r = s.encodeLoop src k i r := by
  induction k generalizing i r with
  | zero => rfl
  | succ k ih => exact ih (i + 1) _

@[simp] theorem State.encodeMem_addErrs (src dst L : Nat) : (s.addErrs e).encodeMem src dst L = s.encodeMem src dst L :=
  congrArg PackRun.commit (s.encodeLoop_addErrs e src L 0 _)

@[simp] theorem State.decodeLoop_addErrs (src dst k j : Nat) (m : Memory) :
    (s.addErrs e).decodeLoop src dst k j m = s.decodeLoop src dst k j m := by
  induction k generalizing j m with
  | zero => rfl
  | succ k ih => exact ih (j + 1) _

end addErrs

/-! ### The commands commute with earlier error bits -/

/-- Command `i` does at `s` with `e` set besides what it does at `s`, and leaves `e` set besides. -/
def State.Commutes (s : State) (e : BitVec 7) (i : Instr) : Prop :=
  nextState (exec i (s.addErrs e)) = (nextState (exec i s)).map (·.addErrs e)

section commands

variable (s : State) (e : BitVec 7)

theorem setw_commutes (imm : Byte) : s.Commutes e (.setw imm) :=
  congrArg some (State.ite_addErrs rfl (s.raise_addErrs e .invalidWidth opcSetw))

theorem qinv_commutes (imm : Byte) : s.Commutes e (.qinv imm) :=
  congrArg some (State.ite_addErrs (s.raise_addErrs e .codeRange opcQinv) rfl)

theorem pack_commutes (imm : Byte) : s.Commutes e (.pack imm) :=
  congrArg some (State.ite_addErrs (s.emitByte_addErrs e _ opcPack) rfl)

theorem pcommit_commutes : s.Commutes e .pcommit :=
  congrArg some (State.ite_addErrs (s.emitByte_addErrs e s.pAcc opcPcommit) rfl)

theorem ubind_commutes (src len : Word) : s.Commutes e (.ubind src len) :=
  congrArg some (State.ite_addErrs rfl (s.raise_addErrs e .busError opcUbind))

theorem unpack_commutes : s.Commutes e .unpack := by
  change nextState (execUnpack _) = (nextState (execUnpack s)).map _
  simp only [execUnpack, State.addErrs_uRem, State.addErrs_uPtr, State.addErrs_uOff, State.addErrs_mem,
    State.addErrs_codeAt, State.advanceUnpacker_addErrs]
  split
  · exact congrArg some (s.raise_addErrs e .bufferUnderrun opcUnpack)
  · split <;> rfl

theorem encode_commutes (src dst L : Word) : s.Commutes e (.encode src dst L) := by
  refine congrArg some ?_
  simp only [State.addErrs_mem, State.addErrs_packedBytes, State.encodeMem_addErrs]
  split
  · exact s.raise_addErrs e _ opcEncode
  · rfl

theorem decode_commutes (src len dst count : Word) : s.Commutes e (.decode src len dst count) := by
  refine congrArg some ?_
  simp only [State.addErrs_mem, State.addErrs_codesIn, State.decodeLoop_addErrs]
  split
  · exact s.raise_addErrs e _ opcDecode
  · exact State.ite_addErrs (s.raise_addErrs e .countOverrun opcDecode) rfl

theorem decodeRaw_commutes (src len dst : Word) : s.Commutes e (.decodeRaw src len dst) := by
  refine congrArg some ?_
  simp only [State.addErrs_mem, State.addErrs_codesIn, State.decodeLoop_addErrs]
  split
  · exact s.raise_addErrs e _ opcDecodeRaw
  · rfl

/-- Every command but STAT, which answers ERRS, and CLRERR, which clears it, commutes with earlier error bits. -/
theorem exec_commutes {i : Instr} (hstat : i ≠ .stat) (hclr : i ≠ .clrerr) : s.Commutes e i := by
  cases i with
  | stat => exact absurd rfl hstat
  | clrerr => exact absurd rfl hclr
  | nop | rdpp | rdup | rdur | qfwd _ | pbind _ | ufin => rfl
  | setw imm => exact setw_commutes s e imm
  | qinv imm => exact qinv_commutes s e imm
  | pack imm => exact pack_commutes s e imm
  | pcommit => exact pcommit_commutes s e
  | ubind src len => exact ubind_commutes s e src len
  | unpack => exact unpack_commutes s e
  | encode src dst L => exact encode_commutes s e src dst L
  | decode src len dst count => exact decode_commutes s e src len dst count
  | decodeRaw src len dst => exact decodeRaw_commutes s e src len dst

end commands

/-- Any error bits are those bits beside none. -/
theorem State.addErrs_setErrs_zero (s : State) (e : BitVec 7) : (s.setErrs 0).addErrs e = s.setErrs e :=
  congrArg s.setErrs BitVec.or_zero

/-- Settles O52: CLRERR clears whatever is set, and every other command commutes with the bits set before. -/
theorem stickyErrorBitsChangeNoCommand : Obligations.StickyErrorBitsChangeNoCommand := by
  intro s i e hstat
  by_cases hclr : i = .clrerr
  · subst hclr; rfl
  · have hcomm := exec_commutes (s.setErrs 0) e hstat hclr
    rw [State.Commutes, State.addErrs_setErrs_zero] at hcomm
    simp only [if_neg hclr]
    exact hcomm

end Sys2Proof.Machine
end

section
/-! PROOF. Who writes W and DISP (spec/10_state.md R20, R21) and the registers of the two streaming units (R35), read off
the two ways in which a command can end: an error and the answer write neither, so it is the command's work that counts. -/

namespace Sys2Proof.Machine

/-- `t` has the width of `s` and its row. -/
def State.SameWidth (s t : State) : Prop := t.w = s.w ∧ t.disp = s.disp

/-- `t` has the streaming packer's registers of `s` (R24, R25, R26). -/
def State.SamePacker (s t : State) : Prop := t.pAcc = s.pAcc ∧ t.pOff = s.pOff ∧ t.pPtr = s.pPtr

/-- `t` has the streaming unpacker's registers of `s` (R27, R28). -/
def State.SameUnpacker (s t : State) : Prop := t.uPtr = s.uPtr ∧ t.uRem = s.uRem ∧ t.uOff = s.uOff

/-- The work of every command but SETW keeps the width. -/
theorem State.Effect.sameWidth_or_setw {s u : State} {i : Instr} (h : s.Effect i u) :
    s.SameWidth u ∨ (∃ imm, i = .setw imm) ∧ u.WidthOk := by
  cases h with
  | setw legal => exact .inr ⟨⟨_, rfl⟩, s.widthOk_selectWidth legal⟩
  | unpack left =>
    obtain ⟨-, hnext⟩ | ⟨-, hwithin⟩ := s.advanceUnpacker_spec
    · rw [hnext]; exact .inl ⟨rfl, rfl⟩
    · rw [hwithin]; exact .inl ⟨rfl, rfl⟩
  | answerOnly | clrerr | pbind _ | packPartial _ | packFull _ _ | pcommit _ _ | ubind _ | codec _ _ _ =>
    exact .inl ⟨rfl, rfl⟩

/-- The work of a packer or codec command keeps the unpacker. -/
theorem State.Effect.sameUnpacker {s u : State} {i : Instr} (h : s.Effect i u)
    (hi : i.isPacker = true ∨ i.isCodec = true) : s.SameUnpacker u := by
  cases h with
  | setw _ | ubind _ | unpack _ => simp [Instr.isPacker, Instr.isCodec] at hi
  | answerOnly | clrerr | pbind _ | packPartial _ | packFull _ _ | pcommit _ _ | codec _ _ _ => exact ⟨rfl, rfl, rfl⟩

/-- The work of an unpacker or codec command keeps the packer. -/
theorem State.Effect.samePacker {s u : State} {i : Instr} (h : s.Effect i u)
    (hi : i.isUnpacker = true ∨ i.isCodec = true) : s.SamePacker u := by
  cases h with
  | setw _ | pbind _ | packPartial _ | packFull _ _ | pcommit _ _ => simp [Instr.isUnpacker, Instr.isCodec] at hi
  | unpack left =>
    obtain ⟨-, hnext⟩ | ⟨-, hwithin⟩ := s.advanceUnpacker_spec
    · rw [hnext]; exact ⟨rfl, rfl, rfl⟩
    · rw [hwithin]; exact ⟨rfl, rfl, rfl⟩
  | answerOnly | clrerr | ubind _ | codec _ _ _ => exact ⟨rfl, rfl, rfl⟩

/-- Settles O53: an error keeps the width, and so does the work of every command but SETW, which leaves a legal one. -/
theorem onlySetwWritesTheWidth : Obligations.OnlySetwWritesTheWidth := by
  intro s t i hexec
  obtain ⟨e, rfl⟩ | ⟨u, v, heff, rfl⟩ := exec_ends hexec
  · exact .inl ⟨rfl, rfl⟩
  · obtain hsame | ⟨hsetw, hw⟩ := heff.sameWidth_or_setw
    · exact .inl hsame
    · exact .inr ⟨hsetw, hw.cases, hw.disp⟩

/-- Settles O54: an error keeps both units, and a command's work keeps the unit that is not its own. -/
theorem unitsOwnTheirState : Obligations.UnitsOwnTheirState := by
  intro s t i hexec
  obtain ⟨e, rfl⟩ | ⟨u, v, heff, rfl⟩ := exec_ends hexec
  · exact ⟨fun _ => ⟨rfl, rfl, rfl⟩, fun _ => ⟨rfl, rfl, rfl⟩⟩
  · exact ⟨heff.sameUnpacker, heff.samePacker⟩

end Sys2Proof.Machine
end

section
/-! PROOF. Who writes the data memory (spec/20_memory.md R51), read off the two ways in which a command can end: an error
and the answer leave `M` as it was, so it is the command's work that counts. -/

namespace Sys2Proof.Machine

theorem State.advanceUnpacker_mem (s : State) : s.advanceUnpacker.mem = s.mem := by
  obtain ⟨-, hnext⟩ | ⟨-, hwithin⟩ := s.advanceUnpacker_spec
  · rw [hnext]
  · rw [hwithin]

/-- The work of a command that is neither PACK nor PCOMMIT nor the codec's keeps `M`. -/
theorem State.Effect.sameMem {s u : State} {i : Instr} (h : s.Effect i u) (hcodec : i.isCodec = false)
    (hpack : ∀ c, i ≠ .pack c) (hpcommit : i ≠ .pcommit) : u.mem = s.mem := by
  cases h with
  | codec hisCodec => rw [hcodec] at hisCodec; cases hisCodec
  | packPartial | packFull => exact absurd rfl (hpack _)
  | pcommit => exact absurd rfl hpcommit
  | unpack => exact s.advanceUnpacker_mem
  | answerOnly | setw _ | clrerr | pbind _ | ubind _ => rfl

/-- Settles O55: an error and the answer keep `M`, and so does the work of a command that is not listed. -/
theorem onlyTheListedCommandsWriteMemory : Obligations.OnlyTheListedCommandsWriteMemory := by
  intro s t i hexec hcodec hpack hpcommit
  obtain ⟨e, rfl⟩ | ⟨u, v, heff, rfl⟩ := exec_ends hexec
  · rfl
  · exact heff.sameMem hcodec hpack hpcommit

end Sys2Proof.Machine
end

section
/-! PROOF. From the command port to a command's execution (spec/20_memory.md R61, 30_encoding.md R70, R75). A packet that
decodes with no word left over has the length its opcode says, so the core takes exactly that packet; and what the encoder
writes decodes to the command it was written for. -/

namespace Sys2Proof

/-! ### The encoder's packets decode -/

/-- A command word of an assigned opcode is legal where its immediate is one the opcode takes, or zero (R76). -/
theorem checkCommandWord_commandWord {opc imm : Byte} {r : Row} (hrow : findRow opc = some r)
    (himm : r.hasImm = true ∨ imm = 0) : checkCommandWord (commandWord opc imm) = .ok r := by
  have hlegal : ¬ (r.hasImm = false ∧ imm ≠ 0) := by
    rintro ⟨hnone, hne⟩
    obtain htakes | hzero := himm
    · rw [hnone] at htakes; cases htakes
    · exact hne hzero
  simp only [checkCommandWord, Laws.opcField_commandWord, Laws.rsvField_commandWord, Laws.immField_commandWord, hrow,
    if_neg hlegal, ne_eq, not_true_eq_false, if_false]

/-- A legal command word decodes to its row's command, and takes the row's operand words (R75). -/
theorem decode_of_checkCommandWord {cw : Word} {r : Row} {ws : List Word} (hcheck : checkCommandWord cw = .ok r)
    (hall : r.words ≤ ws.length) :
    decode (cw :: ws) = .ok (r.make (immField cw) (ws.take r.words), ws.drop r.words) := by
  simp only [decode, hcheck, if_neg (Nat.not_lt_of_le hall)]

/-- The encoder writes by the table of R74: a command's packet is its row's opcode, its immediate, which is zero where the
row has none (the second case), and the row's number of operand words. -/
theorem encode_by_row (i : Instr) : ∃ (opc imm : Byte) (ops : List Word) (r : Row),
    encode i = commandWord opc imm :: ops ∧ findRow opc = some r ∧ (r.hasImm = true ∨ imm = 0) ∧
      ops.length = r.words ∧ r.make imm ops = i := by
  cases i with
  | setw _ | qfwd _ | qinv _ | pack _ => exact ⟨_, _, _, _, rfl, rfl, .inl rfl, rfl, rfl⟩
  | nop | clrerr | stat | rdpp | rdup | rdur | pbind _ | pcommit | ubind _ _ | unpack | ufin | encode _ _ _
  | decode _ _ _ _ | decodeRaw _ _ _ => exact ⟨_, _, _, _, rfl, rfl, .inr rfl, rfl, rfl⟩

/-- The decoder reads back what the encoder writes and leaves the words after it (R71, R74). -/
theorem decode_encode_append (i : Instr) (rest : List Word) : decode (encode i ++ rest) = .ok (i, rest) := by
  obtain ⟨opc, imm, ops, r, hpacket, hrow, himm, hlen, hmake⟩ := encode_by_row i
  have hall : r.words ≤ (ops ++ rest).length := by rw [List.length_append]; omega
  rw [hpacket, List.cons_append, decode_of_checkCommandWord (checkCommandWord_commandWord hrow himm) hall,
    Laws.immField_commandWord, List.take_left' hlen, List.drop_left' hlen, hmake]

theorem decode_encode (i : Instr) : decode (encode i) = .ok (i, []) := by
  rw [← decode_encode_append i [], List.append_nil]

/-! ### The length of a packet that decodes -/

/-- A legal command word's row is its opcode's (R76). -/
theorem findRow_of_checkCommandWord {cw : Word} {r : Row} (h : checkCommandWord cw = .ok r) :
    findRow (opcField cw) = some r := by
  unfold checkCommandWord at h
  split at h
  · cases h
  · next hrow =>
    split at h
    · cases h
    · split at h
      · cases h
      · cases h; exact hrow

/-- The words after a command word that decodes are its operand words and those left over (R75). -/
theorem length_of_decode {cw : Word} {ops rest : List Word} {i : Instr} (h : decode (cw :: ops) = .ok (i, rest)) :
    ops.length = operandCount (opcField cw) + rest.length := by
  cases hcheck : checkCommandWord cw with
  | error e => simp only [decode, hcheck] at h; cases h
  | ok r =>
    have hcount : operandCount (opcField cw) = r.words := by
      simp only [operandCount, findRow_of_checkCommandWord hcheck]
    simp only [decode, hcheck] at h
    split at h
    · cases h
    · cases h
      rw [hcount, List.length_drop]
      omega

namespace Machine

/-! ### One step takes the packet and executes its command -/

/-- A packet that stands first on the port and decodes is taken whole, and its command executed (R61, R70). -/
theorem step_of_decode {s : State} {cw : Word} {ops : List Word} {rest : List HostEvent} {i : Instr}
    (hin : s.input = (cw :: ops).map .word ++ rest) (hdec : decode (cw :: ops) = .ok (i, [])) :
    step s = exec i (s.setInput rest) := by
  have hnext : nextPending s.input = .packet cw ops rest := by
    rw [hin]; exact nextPending_packet cw ops rest (length_of_decode hdec)
  rw [step_packet hnext, runPacket_ok hdec]

/-- The host's packet of a command makes the next step that command's execution (R61, R70). -/
theorem step_of_encode {s : State} {i : Instr} {rest : List HostEvent}
    (hin : s.input = (encode i).map .word ++ rest) : step s = exec i (s.setInput rest) := by
  obtain ⟨opc, imm, ops, -, hpacket, -⟩ := encode_by_row i
  have hdec := decode_encode i
  rw [hpacket] at hin hdec
  exact step_of_decode hin hdec

/-- Settles O13: the packet's length follows from its decoding, and an encoded command decodes to itself. -/
theorem stepRunsTheDecodedCommand : Obligations.StepRunsTheDecodedCommand :=
  ⟨fun _ _ _ _ _ _ hin hdec => step_of_decode hin hdec, fun _ _ _ hin => step_of_encode hin⟩

end Machine
end Sys2Proof
end

section
/-! PROOF. The host between commands (spec/20_memory.md R59, R62, R64, R66): a host write stores one byte of `M`, which the
host reads back and the unpacker, holding no byte of its own, answers from. -/

namespace Sys2Proof.Machine

/-! ### A host write and the reads after it -/

/-- A host write of an address of `M` is taken from the port and stores its byte (R62, R64). -/
theorem step_write_inside {s : State} {a : Word} {b : Byte} {rest : List HostEvent}
    (hin : s.input = .write a b :: rest) (ha : a.toNat < s.mem.size) :
    step s = .next ((s.setInput rest).setMem (s.mem.write a.toNat b)) := by
  rw [step_write hin]; exact if_pos (Memory.inRange_one.mpr ha)

/-- The host reads back the byte that was stored (R59). -/
theorem State.hostRead_write_same {s : State} (hwf : s.mem.wf = true) {a : Word} (ha : a.toNat < s.mem.size)
    (b : Byte) : (s.setMem (s.mem.write a.toNat b)).hostRead a = some b := by
  have hin : (s.mem.write a.toNat b).inRange a.toNat 1 = true := by
    rw [Memory.inRange_one, Memory.write_size]; exact ha
  rw [State.hostRead, State.setMem_mem, if_pos hin, Memory.read_write_same hwf ha]

/-- At every other address the host reads what it read before (R59). -/
theorem State.hostRead_write_other {s : State} (hwf : s.mem.wf = true) {a x : Word} (hx : x ≠ a) (b : Byte) :
    (s.setMem (s.mem.write a.toNat b)).hostRead x = s.hostRead x := by
  have hne : x.toNat ≠ a.toNat := fun heq => hx (BitVec.eq_of_toNat_eq heq)
  simp only [State.hostRead, State.setMem_mem, Memory.inRange_one, Memory.write_size,
    Memory.read_write_other hwf hne]

/-- Settles O56: the memory after the step is the old one with the byte stored. -/
theorem hostWriteIsSeenByAHostRead : Obligations.HostWriteIsSeenByAHostRead := by
  intro s a b rest hwf hin ha
  exact ⟨s.mem.write a.toNat b, step_write_inside hin ha, Memory.write_size s.mem a.toNat b,
    State.hostRead_write_same (s := s.setInput rest) hwf ha b,
    fun x hx => State.hostRead_write_other (s := s.setInput rest) hwf hx b⟩

/-! ### What UNPACK answers -/

theorem State.advanceUnpacker_ports (s : State) :
    s.advanceUnpacker.input = s.input ∧ s.advanceUnpacker.responses = s.responses := by
  obtain ⟨-, hnext⟩ | ⟨-, hwithin⟩ := s.advanceUnpacker_spec
  · rw [hnext]; exact ⟨rfl, rfl⟩
  · rw [hwithin]; exact ⟨rfl, rfl⟩

/-- At a legal width MASK is all the N bits of a code, so masking is the remainder modulo 2^N (R22, R53). -/
theorem State.WidthOk.codeAt_toNat {s : State} (h : s.WidthOk) (b : Byte) (o : Nat) :
    (s.codeAt b o).toNat = b.toNat / 2 ^ o % 2 ^ s.width := by
  have hmask : s.disp.mask.toNat = 2 ^ s.width - 1 := by
    rw [h.disp]
    obtain hw | hw | hw | hw := legalWidth_iff.mp h.width <;> rw [hw] <;> rfl
  rw [State.codeAt, BitVec.toNat_and, BitVec.toNat_ushiftRight, Nat.shiftRight_eq_div_pow, hmask,
    Nat.and_two_pow_sub_one_eq_mod]

/-- The first byte still to read is a byte of `M` (R140). -/
theorem State.Inv.uPtr_lt {s : State} (h : s.Inv) (left : s.uRem ≠ 0) : s.uPtr.toNat < s.mem.size := by
  have hbound := h.bound.resolve_left left
  bv_omega

/-- Where bytes are left, UNPACK reads the one at U_PTR afresh and answers the code at U_OFF (R141). -/
theorem exec_unpack_of_left {s : State} (h : s.Inv) (left : s.uRem ≠ 0) :
    exec .unpack s = .next (s.advanceUnpacker.respond opcUnpack
      (BitVec.ofNat 32 ((s.mem.read s.uPtr.toNat).toNat / 2 ^ s.uOff.toNat % 2 ^ s.width))) := by
  rw [← h.widthOk.codeAt_toNat, BitVec.ofNat_toNat]
  exact (if_neg left).trans (if_pos (Memory.inRange_one.mpr (h.uPtr_lt left)))

/-- Settles O58: the first step stores the byte at U_PTR and moves no register, so the second, an UNPACK, reads it there. -/
theorem unpackSeesAHostWrite : Obligations.UnpackSeesAHostWrite := by
  intro s b rest hinv left hin
  have hwrite := step_write_inside hin (hinv.uPtr_lt left)
  have hwritten := hinv.step hwrite
  refine ⟨_, _, hwrite, (step_of_encode (i := .unpack) rfl).trans
    (exec_unpack_of_left (hwritten.setInput rest) left), ?_, ?_⟩
  · exact (State.advanceUnpacker_ports _).1
  · have hread : (s.mem.write s.uPtr.toNat b).read s.uPtr.toNat = b :=
      Memory.read_write_same hinv.mem_wf (hinv.uPtr_lt left) b
    rw [State.respond_spec]
    simp [State.advanceUnpacker_ports, hread, State.width, respWord]

end Sys2Proof.Machine
end

section
/-! PROOF. The encoding of commands (spec/30_encoding.md R70 to R77). The table of R74 is read three ways: the encoder
writes what a row makes, a command word is its three fields, and a command word is legal when its opcode has a row, its
RSV is zero and its immediate is zero where the row takes none. Decoding then has encoding as its two-sided inverse, and
refuses a whole packet exactly on the illegal words of R76. -/

namespace Sys2Proof

open Machine

/-! ### The rows of the table -/

/-- A row that is found stands in the table under the opcode looked for (R74). -/
theorem mem_of_findRow {opc : Byte} {r : Row} (h : findRow opc = some r) : r ∈ opcodeMap ∧ r.opc = opc :=
  ⟨List.mem_of_find?_eq_some h, by simpa using List.find?_some h⟩

/-- An opcode is unassigned exactly when it is not one of the 18 of R74, which are the table's opcode column. -/
theorem findRow_eq_none_iff {opc : Byte} : findRow opc = none ↔
    opc ∉ [0x00#8, 0x01#8, 0x02#8, 0x03#8, 0x04#8, 0x05#8, 0x06#8, 0x10#8, 0x11#8, 0x20#8, 0x21#8, 0x22#8,
      0x30#8, 0x31#8, 0x32#8, 0x40#8, 0x41#8, 0x42#8] := by
  have hopcodes : findRow opc = none ↔ opc ∉ opcodeMap.map Row.opc := by
    simp only [findRow, List.find?_eq_none, beq_iff_eq, List.mem_map, not_exists, not_and]
  exact hopcodes

/-- The rows with an immediate are those of SETW, QFWD, QINV and PACK (R74). -/
theorem hasImm_iff_of_mem : ∀ r ∈ opcodeMap, r.hasImm = true ↔ r.opc ∈ [0x01#8, 0x10#8, 0x11#8, 0x21#8] := by
  decide

theorem words_of_mem : ∀ r ∈ opcodeMap, r.words = packetOperands r.opc := by
  decide

/-- What the encoder writes for the command a row makes, row by row: the row's opcode, the immediate where the row takes
one, and as many operand words as the row says (R74). -/
theorem encode_make {r : Row} (hr : r ∈ opcodeMap) (imm : Byte) (ws : List Word) :
    encode (r.make imm ws) =
      commandWord r.opc (if r.hasImm then imm else 0) :: (List.range r.words).map (operand ws) := by
  fin_cases hr <;> rfl

/-- The operand words of a packet, in order, are the whole list of them (R73). -/
theorem map_operand_range (ws : List Word) : (List.range ws.length).map (operand ws) = ws := by
  apply List.ext_getElem
  · simp
  · intro k hk hlt
    simp [operand, hlt]

/-! ### Command words -/

/-- A command word whose RSV is zero is `OPC | (IMM << 8)` (R71): bit by bit, the low 8 bits are the opcode's, the next 8
the immediate's, and those above are zero. -/
theorem commandWord_fields {cw : Word} (hrsv : rsvField cw = 0) : commandWord (opcField cw) (immField cw) = cw := by
  apply BitVec.eq_of_getLsbD_eq
  intro k hk
  by_cases hlow : k < 8
  · simp [commandWord, opcField, hk, hlow]
  · by_cases hmid : k < 16
    · have hsub : k - 8 < 8 := by omega
      have hadd : 8 + (k - 8) = k := by omega
      simp [commandWord, opcField, immField, hk, hlow, hsub, hadd]
    · have hsub : ¬ k - 8 < 8 := by omega
      have hzero : cw[k] = false := by
        have hbit := congrArg (BitVec.getLsbD · (k - 16)) hrsv
        have hlt : k - 16 < 16 := by omega
        have hadd : 16 + (k - 16) = k := by omega
        simpa [rsvField, hlt, hadd, BitVec.getLsbD_eq_getElem hk] using hbit
      simp [commandWord, opcField, immField, hk, hlow, hsub, hzero]

/-- The three conditions under which a command word is legal, and its row (R76). -/
theorem checkCommandWord_eq_ok_iff {cw : Word} {r : Row} : checkCommandWord cw = .ok r ↔
    findRow (opcField cw) = some r ∧ rsvField cw = 0 ∧ (r.hasImm = true ∨ immField cw = 0) := by
  constructor
  · intro h
    have hrow := findRow_of_checkCommandWord h
    simp only [checkCommandWord, hrow] at h
    split at h
    · cases h
    · next hrsv =>
      split at h
      · cases h
      · next himm =>
        refine ⟨hrow, not_not.mp hrsv, ?_⟩
        exact (Classical.em (immField cw = 0)).symm.imp_left fun hne =>
          Bool.eq_true_of_not_eq_false fun hnone => himm ⟨hnone, hne⟩
  · rintro ⟨hrow, hrsv, himm⟩
    have hcheck := checkCommandWord_commandWord hrow himm
    rwa [commandWord_fields hrsv] at hcheck

/-- A legal command word is the one written from its row's opcode and its immediate, zero where the row takes none (R71,
R76). -/
theorem commandWord_of_checkCommandWord {cw : Word} {r : Row} (h : checkCommandWord cw = .ok r) :
    commandWord r.opc (if r.hasImm then immField cw else 0) = cw := by
  obtain ⟨hrow, hrsv, himm⟩ := checkCommandWord_eq_ok_iff.mp h
  have himm' : (if r.hasImm then immField cw else 0) = immField cw := by
    split
    · rfl
    · next hnone => exact (himm.resolve_left hnone).symm
  rw [himm', (mem_of_findRow hrow).2, commandWord_fields hrsv]

theorem operandCount_of_checkCommandWord {cw : Word} {r : Row} (h : checkCommandWord cw = .ok r) :
    operandCount (opcField cw) = r.words := by
  simp only [operandCount, findRow_of_checkCommandWord h]

/-! ### Packets -/

/-- What a list of words that decodes consists of: a legal command word, its row's operand words, and the words left
over; the command is the one the row makes (R70, R75, R76). -/
theorem decode_eq_ok_iff {ws rest : List Word} {i : Instr} : decode ws = .ok (i, rest) ↔
    ∃ cw ops r, ws = cw :: (ops ++ rest) ∧ checkCommandWord cw = .ok r ∧ ops.length = r.words ∧
      i = r.make (immField cw) ops := by
  constructor
  · intro h
    cases ws with
    | nil => cases h
    | cons cw more =>
      cases hcheck : checkCommandWord cw with
      | error e => simp only [decode, hcheck] at h; cases h
      | ok r =>
        simp only [decode, hcheck] at h
        split at h
        · cases h
        · next hall =>
          cases h
          refine ⟨cw, more.take r.words, r, by rw [List.take_append_drop], hcheck, ?_, rfl⟩
          rw [List.length_take]; omega
  · rintro ⟨cw, ops, r, rfl, hcheck, hlen, rfl⟩
    have hall : r.words ≤ (ops ++ rest).length := by rw [List.length_append]; omega
    rw [decode_of_checkCommandWord hcheck hall, List.take_left' hlen, List.drop_left' hlen]

/-- Settles O7, by the table of R74: each command is written as its row says and read back by the same row. -/
theorem decodeReadsBackEveryEncodedCommand : Obligations.DecodeReadsBackEveryEncodedCommand := decode_encode_append

/-- Settles O8: the command word and the operand words of a packet that decodes are those the encoder writes for what its
row makes of them. -/
theorem encodingIsTheOnlyPacketOfACommand : Obligations.EncodingIsTheOnlyPacketOfACommand := by
  intro ws rest i hdec
  obtain ⟨cw, ops, r, rfl, hcheck, hlen, rfl⟩ := decode_eq_ok_iff.mp hdec
  have hr := (mem_of_findRow (findRow_of_checkCommandWord hcheck)).1
  rw [encode_make hr, commandWord_of_checkCommandWord hcheck, ← hlen, map_operand_range, List.cons_append]

/-- Settles O9: the two packets of R81 and the three examples are what the encoder writes, so they decode to their
commands. -/
theorem wordsOfTheSpecDecodeToTheirCommands : Obligations.WordsOfTheSpecDecodeToTheirCommands :=
  ⟨decode_encode (.pack 12), by decide, decode_encode (.encode 0 0x20 8), by decide, decode_encode (.setw 4),
    decode_encode (.qfwd 200), decode_encode (.ubind 0x100 1)⟩

/-! ### The length of a packet -/

/-- The operand words of an opcode, assigned or not, are those R75 gives it. -/
theorem operandCount_eq_packetOperands (opc : Byte) : operandCount opc = packetOperands opc := by
  cases hrow : findRow opc with
  | none =>
    have hunassigned := findRow_eq_none_iff.mp hrow
    simp only [List.mem_cons, List.not_mem_nil, or_false, not_or] at hunassigned
    simp [operandCount, hrow, packetOperands, hunassigned]
  | some r =>
    obtain ⟨hr, rfl⟩ := mem_of_findRow hrow
    simp only [operandCount, hrow, words_of_mem r hr]

/-- Settles O10: the table's number of operand words is R75's, and the port gives that many words whatever the command
word's other fields are. -/
theorem packetLengthFollowsFromTheOpcodeAlone : Obligations.PacketLengthFollowsFromTheOpcodeAlone :=
  ⟨operandCount_eq_packetOperands, fun cw ops rest hlen =>
    nextPending_packet cw ops rest (hlen.trans (operandCount_eq_packetOperands _).symm)⟩

/-! ### Illegal words -/

/-- A command word is not illegal in any of R76's three items exactly when the legality check finds its row: the items
are the failures of the check's three conditions. -/
theorem not_illegalWord_iff {cw : Word} : ¬ IllegalWord cw ↔ ∃ r, checkCommandWord cw = .ok r := by
  simp only [checkCommandWord_eq_ok_iff]
  cases hrow : findRow (opcField cw) with
  | none => exact iff_of_false (not_not.mpr (.inl (findRow_eq_none_iff.mp hrow))) (by simp)
  | some r =>
    obtain ⟨hr, hopc⟩ := mem_of_findRow hrow
    have hsome : findRow (opcField cw) ≠ none := by simp [hrow]
    have hassigned := not_not.mp (mt findRow_eq_none_iff.mpr hsome)
    have htakes := hasImm_iff_of_mem r hr
    rw [hopc] at htakes
    calc ¬ IllegalWord cw ↔ rsvField cw = 0 ∧ (r.hasImm = true ∨ immField cw = 0) := by
          rw [htakes]
          simp only [IllegalWord, not_or, not_and_or, not_not]
          exact and_iff_right hassigned
      _ ↔ _ := by simp

theorem not_illegalWord_of_decode {cw : Word} {ops rest : List Word} {i : Instr}
    (h : decode (cw :: ops) = .ok (i, rest)) : ¬ IllegalWord cw := by
  obtain ⟨_, _, r, hws, hcheck, -, -⟩ := decode_eq_ok_iff.mp h
  cases hws
  exact not_illegalWord_iff.mpr ⟨r, hcheck⟩

/-- Settles O11: a whole packet decodes exactly when the legality check finds its row, since no operand word is looked
at. -/
theorem packetIsACommandExactlyWhenLegal : Obligations.PacketIsACommandExactlyWhenLegal := by
  intro cw ops hlen
  constructor
  · rintro ⟨i, hdec⟩
    exact not_illegalWord_of_decode hdec
  · intro hlegal
    obtain ⟨r, hcheck⟩ := not_illegalWord_iff.mp hlegal
    have hwords : ops.length = r.words := by
      rw [hlen, ← operandCount_of_checkCommandWord hcheck]
      exact (operandCount_eq_packetOperands _).symm
    exact ⟨r.make (immField cw) ops, decode_eq_ok_iff.mpr ⟨cw, ops, r, by rw [List.append_nil], hcheck, hwords, rfl⟩⟩

/-- Settles O12: the packet of an illegal word is taken whole and does not decode, and what follows is the entry of
IllegalCommand. -/
theorem illegalWordRaisesIllegalCommand : Obligations.IllegalWordRaisesIllegalCommand := by
  intro s cw ops rest hillegal hlen hin
  have hnext : nextPending s.input = .packet cw ops rest := by
    rw [hin]; exact packetLengthFollowsFromTheOpcodeAlone.2 cw ops rest hlen
  obtain ⟨e, herror⟩ : ∃ e, decode (cw :: ops) = .error e := by
    cases hdec : decode (cw :: ops) with
    | error e => exact ⟨e, rfl⟩
    | ok im => exact absurd hillegal (not_illegalWord_of_decode hdec)
  rw [step_packet hnext, runPacket_error herror, State.illegal, State.raise_spec]
  rfl

end Sys2Proof
end

section
/-! PROOF. The assembler's pseudo-commands and its refusals (spec/30_encoding.md R79, R80). -/

namespace Sys2Proof

/-! ### What the assembler accepts and refuses -/

/-- A line that passes the three checks of R79 assembles to its commands. -/
theorem AsmLine.assemble_of_wellFormed {l : AsmLine} (h : l.wellFormed = true) : l.assemble = .ok l.commands := by
  simp only [AsmLine.wellFormed, Bool.and_eq_true] at h
  obtain ⟨⟨hcount, himm⟩, hops⟩ := h
  simp [AsmLine.assemble, hcount, himm, hops]

/-- An immediate above 255 is refused, whatever the operands are: it is tested before them (R79). -/
theorem AsmLine.assemble_of_large_imm {l : AsmLine} (hcount : l.countOk = true) (himm : 255 < l.imm) :
    l.assemble = .error .immediateTooLarge := by
  have hbad : l.immOk = false := decide_eq_false (Nat.not_le_of_lt himm)
  simp [AsmLine.assemble, hcount, hbad]

theorem AsmLine.assemble_of_large_operand {l : AsmLine} (hcount : l.countOk = true) (himm : l.immOk = true)
    (hops : ∃ v ∈ l.operands, 2 ^ 32 - 1 < v) : l.assemble = .error .operandTooLarge := by
  have hbad : l.operandsOk = false := by
    obtain ⟨v, hv, hlarge⟩ := hops
    exact List.all_eq_false.mpr ⟨v, hv, by simpa using hlarge⟩
  simp [AsmLine.assemble, hcount, himm, hbad]

/-- Settles O15: a line with the right number of numbers fails the check that its first number, the immediate, or one of
its operands breaks. -/
theorem assemblerRefusesNumbersTooLarge : Obligations.AssemblerRefusesNumbersTooLarge := by
  refine ⟨?_, fun l => AsmLine.assemble_of_large_operand⟩
  intro m v vs htakes hlen hlarge
  apply AsmLine.assemble_of_large_imm
  · simp [AsmLine.countOk, htakes, hlen]
  · simpa [AsmLine.imm, htakes] using hlarge

/-! ### The pseudo-commands -/

/-- A line that gives an immediate of one byte and the right number of words passes the checks (R79). -/
theorem AsmLine.wellFormed_of_words {m : Mnemonic} (htakes : m.hasImm = true) (n : Byte) {ws : List Word}
    (hlen : ws.length = m.operandWords) : AsmLine.wellFormed ⟨m, n.toNat :: ws.map BitVec.toNat⟩ = true := by
  have hcount : AsmLine.countOk ⟨m, n.toNat :: ws.map BitVec.toNat⟩ = true := by simp [AsmLine.countOk, htakes, hlen]
  have himm : AsmLine.immOk ⟨m, n.toNat :: ws.map BitVec.toNat⟩ = true := by
    simpa [AsmLine.immOk, AsmLine.imm, htakes] using Laws.byte_le n
  have hops : AsmLine.operandsOk ⟨m, n.toNat :: ws.map BitVec.toNat⟩ = true := by
    simpa [AsmLine.operandsOk, AsmLine.operands, htakes] using fun w _ => Laws.word_le w
  rw [AsmLine.wellFormed, hcount, himm, hops]; rfl

/-- ENCW stands for SETW and ENCODE (R80). -/
theorem assemble_encw (n : Byte) (src dst L : Word) :
    AsmLine.assemble ⟨.encw, [n.toNat, src.toNat, dst.toNat, L.toNat]⟩ = .ok [.setw n, .encode src dst L] := by
  have hwf := AsmLine.wellFormed_of_words (m := .encw) rfl n (ws := [src, dst, L]) rfl
  refine (AsmLine.assemble_of_wellFormed hwf).trans ?_
  simp [AsmLine.commands, AsmLine.immByte, AsmLine.imm, AsmLine.word, AsmLine.operands, Mnemonic.hasImm]

/-- DECW stands for SETW and DECODE (R80). -/
theorem assemble_decw (n : Byte) (src len dst count : Word) :
    AsmLine.assemble ⟨.decw, [n.toNat, src.toNat, len.toNat, dst.toNat, count.toNat]⟩ =
      .ok [.setw n, .decode src len dst count] := by
  have hwf := AsmLine.wellFormed_of_words (m := .decw) rfl n (ws := [src, len, dst, count]) rfl
  refine (AsmLine.assemble_of_wellFormed hwf).trans ?_
  simp [AsmLine.commands, AsmLine.immByte, AsmLine.imm, AsmLine.word, AsmLine.operands, Mnemonic.hasImm]

namespace Machine

theorem runCommands_singleton (i : Instr) (s : State) : runCommands [i] s = nextState (exec i s) := by
  cases hexec : exec i s <;> simp [runCommands, hexec, nextState]

/-- Where the first command leaves a state, the others run at it (R61). -/
theorem runCommands_cons_of_next {i : Instr} {s t : State} (h : exec i s = .next t) (is : List Instr) :
    runCommands (i :: is) s = runCommands is t := by
  simp [runCommands, h, nextState]

theorem legalWidth_toNat_iff {n : Byte} : legalWidth n.toNat = true ↔ n ∈ [1#8, 2#8, 4#8, 8#8] := by
  simp [legalWidth_iff, ← BitVec.toNat_inj]

/-- SETW of any width but 1, 2, 4 and 8 raises InvalidWidth and leaves the width as it was (R101). -/
theorem exec_setw_of_illegal {n : Byte} (hn : n ∉ [1#8, 2#8, 4#8, 8#8]) (s : State) :
    exec (.setw n) s = .next (s.raise .invalidWidth opcSetw) :=
  congrArg Host.Outcome.next (if_neg (mt legalWidth_toNat_iff.mp hn))

/-- Settles O14: the two lines assemble to their two commands, and a refused SETW leaves a state with the old width, at
which the second command runs. -/
theorem pseudoCommandsExpandToTwoCommands : Obligations.PseudoCommandsExpandToTwoCommands := by
  refine ⟨assemble_encw, assemble_decw, ?_⟩
  intro s n i hn
  rw [runCommands_cons_of_next (exec_setw_of_illegal hn s), runCommands_singleton, State.raise_spec]
  rfl

end Machine
end Sys2Proof
end

section
/-! PROOF. The control commands (spec/40_control.md R100 to R106). Each is one shared operation whose law gives the whole
next state; SETW alone has a choice, by its immediate, between two of them. -/

namespace Sys2Proof.Machine

/-! ### Commands that answer a register -/

/-- Settles O17: NOP is a response of value 0 and nothing more. -/
theorem nopOnlyResponds : Obligations.NopOnlyResponds := fun s =>
  congrArg Host.Outcome.next (s.respond_spec opcNop 0)

/-- Settles O21: each readback is a response whose value is its register. -/
theorem readbacksAnswerTheirRegister : Obligations.ReadbacksAnswerTheirRegister := by
  intro s
  refine ⟨?rdpp, ?rdup, ?rdur⟩
  case rdpp => exact congrArg Host.Outcome.next (s.respond_spec opcRdpp s.pPtr)
  case rdup => exact congrArg Host.Outcome.next (s.respond_spec opcRdup s.uPtr)
  case rdur => exact congrArg Host.Outcome.next (s.respond_spec opcRdur s.uRem)

/-! ### CLRERR -/

/-- Settles O19: CLRERR responds from the state whose error bits are cleared. -/
theorem clrerrClearsEveryErrorBit : Obligations.ClrerrClearsEveryErrorBit := by
  intro s
  refine congrArg Host.Outcome.next (?_ : s.clearErrs.respond opcClrerr 0 = _)
  rw [State.respond_spec, State.clearErrs_spec]
  rfl

/-! ### SETW -/

/-- The dispatch table as R22 writes it out: each width that SETW accepts, with its MASK, SHIFT, SCALE and CPB. -/
def dispatchRows : List (Byte × Disp) :=
  [(1#8, ⟨0x01#8, 7, 255, 8⟩), (2#8, ⟨0x03#8, 6, 85, 4⟩), (4#8, ⟨0x0F#8, 4, 17, 2⟩), (8#8, ⟨0xFF#8, 0, 1, 1⟩)]

/-- The formulas of R22 give the rows of its table, and the table's widths are legal. -/
theorem dispatch_of_mem_dispatchRows :
    ∀ p ∈ dispatchRows, legalWidth p.1.toNat = true ∧ dispatch p.1.toNat = p.2 := by decide

/-- SETW of a legal width constructs a new packer and unpacker and answers 0 (R101). -/
theorem exec_setw_of_legal {n : Byte} (legal : legalWidth n.toNat = true) (s : State) :
    exec (.setw n) s = .next ((s.selectWidth n.toNat).respond opcSetw 0) :=
  congrArg Host.Outcome.next (if_pos legal)

/-- Settles O18: an immediate in R22's table selects its row, any other is refused. -/
theorem setwSelectsALegalWidthOrRefuses : Obligations.SetwSelectsALegalWidthOrRefuses := by
  constructor
  · intro s p hp
    obtain ⟨legal, hrow⟩ := dispatch_of_mem_dispatchRows p hp
    rw [exec_setw_of_legal legal, State.respond_spec, State.selectWidth_spec, BitVec.ofNat_toNat, hrow]
    rfl
  · intro s imm himm
    rw [exec_setw_of_illegal himm, State.raise_spec]
    rfl

end Sys2Proof.Machine
end

section
/-! PROOF. A packed buffer as one number (spec/20_memory.md R53, R54, 41_packer.md R123): the codes are its digits in
base 2^N, least significant first, and the buffer's bytes are its digits in base 2^8. Reading a code at its place in its
byte and reading the digit of the number are then the same, and a byte is settled once the codes have passed it. -/

namespace Sys2Proof.Machine

/-! ### The number and its digits -/

/-- The number whose digits of `n` bits are the low `n` bits of the codes, the first code lowest (R54). -/
def packedValue (n : Nat) (codes : List Byte) : Nat := Nat.ofDigits (2 ^ n) (codes.map fun c => c.toNat % 2 ^ n)

/-- Byte `k` of a number, the lowest first. -/
def byteOf (v k : Nat) : Nat := v / 2 ^ (8 * k) % 2 ^ 8

@[simp] theorem packedValue_nil (n : Nat) : packedValue n [] = 0 := rfl

/-- A further code is a digit above the others. -/
theorem packedValue_concat (n : Nat) (codes : List Byte) (c : Byte) :
    packedValue n (codes ++ [c]) = packedValue n codes + c.toNat % 2 ^ n * 2 ^ (codes.length * n) := by
  rw [packedValue, List.map_append, Nat.ofDigits_append, List.length_map, ← Nat.pow_mul, Nat.mul_comm n, Nat.mul_comm]
  simp [packedValue]

/-- L codes take L * N bits. -/
theorem packedValue_lt (n : Nat) (codes : List Byte) : packedValue n codes < 2 ^ (codes.length * n) := by
  induction codes using List.reverseRecOn with
  | nil => simp
  | append_singleton codes c ih =>
    have hcode : c.toNat % 2 ^ n + 1 ≤ 2 ^ n := Nat.mod_lt _ (Nat.two_pow_pos n)
    calc packedValue n (codes ++ [c])
        = packedValue n codes + c.toNat % 2 ^ n * 2 ^ (codes.length * n) := packedValue_concat n codes c
      _ < (c.toNat % 2 ^ n + 1) * 2 ^ (codes.length * n) := by rw [Nat.succ_mul, Nat.add_comm]; omega
      _ ≤ 2 ^ n * 2 ^ (codes.length * n) := Nat.mul_le_mul_right _ hcode
      _ = 2 ^ ((codes ++ [c]).length * n) := by
        rw [← Nat.pow_add, List.length_append, List.length_singleton, Nat.succ_mul, Nat.add_comm]

/-- The digits are the codes. -/
theorem packedValue_digit (n : Nat) (codes : List Byte) (j : Nat) (hj : j < codes.length) :
    packedValue n codes / 2 ^ (j * n) % 2 ^ n = codes[j].toNat % 2 ^ n := by
  have hdigits : ∀ l ∈ codes.map (fun c => c.toNat % 2 ^ n), l < 2 ^ n := by
    simpa using fun (c : Byte) _ => Nat.mod_lt c.toNat (Nat.two_pow_pos n)
  rw [packedValue, Nat.mul_comm j, Nat.pow_mul, Nat.ofDigits_div_pow_eq_ofDigits_drop j (Nat.two_pow_pos n) _ hdigits,
    ← List.map_drop, List.drop_eq_getElem_cons hj, List.map_cons, Nat.ofDigits_cons, Nat.add_mul_mod_self_left,
    Nat.mod_mod]

/-- Above the codes the digits are 0. -/
theorem packedValue_digit_above (n : Nat) (codes : List Byte) {j : Nat} (hj : codes.length ≤ j) :
    packedValue n codes / 2 ^ (j * n) % 2 ^ n = 0 := by
  have hlt : packedValue n codes < 2 ^ (j * n) :=
    (packedValue_lt n codes).trans_le (Nat.pow_le_pow_right (by decide) (Nat.mul_le_mul_right n hj))
  rw [Nat.div_eq_of_lt hlt, Nat.zero_mod]

/-! ### Codes in bytes -/

/-- The place of code `j` (R54): its byte and the bit in that byte count `j * N` bits, and the code does not cross into
the next byte. -/
theorem codePlace_bits {n : Nat} (hn : legalWidth n = true) (j : Nat) :
    8 * (j / (8 / n)) + j % (8 / n) * n = j * n ∧ j % (8 / n) * n + n ≤ 8 := by
  obtain rfl | rfl | rfl | rfl := legalWidth_iff.mp hn <;> omega

/-- The code at its place in its byte is the digit of the number (R53, R54). -/
theorem byteOf_code {n : Nat} (hn : legalWidth n = true) (v j : Nat) :
    byteOf v (j / (8 / n)) / 2 ^ (j % (8 / n) * n) % 2 ^ n = v / 2 ^ (j * n) % 2 ^ n := by
  obtain ⟨hplace, hin⟩ := codePlace_bits hn j
  generalize j % (8 / n) * n = o at hplace hin ⊢
  have hbyte : 2 ^ 8 = 2 ^ o * 2 ^ (8 - o) := by rw [← Nat.pow_add, Nat.add_sub_cancel' (by omega)]
  rw [byteOf, hbyte, Nat.mod_mul_right_div_self, Nat.mod_mod_of_dvd _ (Nat.pow_dvd_pow 2 (by omega)),
    Nat.div_div_eq_div_mul, ← Nat.pow_add, hplace]

/-! ### The byte being filled -/

/-- Inserting at bit `b`: above the whole bytes already passed, the number grows by the code at offset `b % 8`. -/
theorem insert_div (v c b : Nat) :
    (v + c * 2 ^ b) / 2 ^ (8 * (b / 8)) = v / 2 ^ (8 * (b / 8)) + c * 2 ^ (b % 8) := by
  have hsplit : c * 2 ^ b = c * 2 ^ (b % 8) * 2 ^ (8 * (b / 8)) := by
    rw [Nat.mul_assoc, ← Nat.pow_add, Nat.mod_add_div]
  rw [hsplit, Nat.add_mul_div_right _ _ (Nat.two_pow_pos _)]

/-- The bytes passed are settled: inserting at bit `b` changes none that ends at or below it. -/
theorem byteOf_insert (v c : Nat) {b k : Nat} (hk : k < b / 8) : byteOf (v + c * 2 ^ b) k = byteOf v k := by
  have hsplit : c * 2 ^ b = c * 2 ^ (b - 8 * k - 8) * 2 ^ 8 * 2 ^ (8 * k) := by
    rw [Nat.mul_assoc, Nat.mul_assoc, ← Nat.pow_add, ← Nat.pow_add]
    congr 2
    omega
  rw [byteOf, byteOf, hsplit, Nat.add_mul_div_right _ _ (Nat.two_pow_pos _), Nat.add_mul_mod_self_right]

/-- Where nothing lies above a byte, the byte is all that is left of the number. -/
theorem byteOf_of_lt {v k : Nat} (h : v < 2 ^ (8 * (k + 1))) : byteOf v k = v / 2 ^ (8 * k) :=
  Nat.mod_eq_of_lt (Nat.div_lt_of_lt_mul (by rw [← Nat.pow_add]; exact h))

end Sys2Proof.Machine
end

section
/-! PROOF. The streaming packer's commands (spec/41_packer.md R120 to R122), one equation for each way a command can go. A
byte that is appended goes through `State.emitByte` for PACK and PCOMMIT alike, and a code put in at the packer's offset
is added, because the accumulator has no bit there. -/

namespace Sys2Proof.Machine

/-! ### Appending a byte -/

theorem State.storeByte_spec (s : State) (b : Byte) : s.storeByte b = { s with
    mem := s.mem.write s.pPtr.toNat b, pAcc := 0, pOff := 0, pPtr := BitVec.ofNat 32 (s.pPtr.toNat + 1) } := by
  rw [BitVec.ofNat_add, BitVec.ofNat_toNat, BitVec.setWidth_eq]
  rfl

/-- Where P_PTR is in `M`, the byte is stored and the answer is 1 (R121, R122). -/
theorem State.emitByte_of_fits {s : State} (fits : s.pPtr.toNat < s.mem.size) (b opc : Byte) :
    s.emitByte b opc = (s.storeByte b).respond opc 1 := if_pos (Memory.inRange_one.mpr fits)

/-- Where P_PTR is outside `M`, the command fails with BusError (R121, R122). -/
theorem State.emitByte_of_outside {s : State} (outside : s.mem.size ≤ s.pPtr.toNat) (b opc : Byte) :
    s.emitByte b opc = s.raise .busError opc :=
  if_neg fun hin => Nat.not_lt.mpr outside (Memory.inRange_one.mp hin)

/-! ### Putting a code in -/

/-- At a legal width MASK is all the N bits of a code, so masking is the remainder modulo 2^N (R22, R121). -/
theorem State.WidthOk.maskCode_toNat {s : State} (h : s.WidthOk) (imm : Byte) :
    (s.maskCode imm).toNat = imm.toNat % 2 ^ s.width := by
  have hfirst : s.codeAt imm 0 = s.maskCode imm := by rw [State.codeAt, BitVec.ushiftRight_zero, State.maskCode]
  rw [← hfirst, h.codeAt_toNat, Nat.pow_zero, Nat.div_one]

/-- A code inserted above the accumulator's bits is added to it: the `|` of R121 is a `+`. -/
theorem insert_toNat {acc code : Byte} {o n : Nat} (hacc : acc.toNat < 2 ^ o) (hcode : code.toNat < 2 ^ n)
    (hin : o + n ≤ 8) : (acc ||| (code <<< o)).toNat = acc.toNat + code.toNat * 2 ^ o := by
  have hshifted : code.toNat * 2 ^ o < 2 ^ 8 :=
    calc code.toNat * 2 ^ o < 2 ^ n * 2 ^ o := Nat.mul_lt_mul_of_pos_right hcode (Nat.two_pow_pos o)
      _ = 2 ^ (o + n) := by rw [← Nat.pow_add, Nat.add_comm]
      _ ≤ 2 ^ 8 := Nat.pow_le_pow_right (by decide) hin
  rw [BitVec.toNat_or, BitVec.toNat_shiftLeft, Nat.shiftLeft_eq, Nat.mod_eq_of_lt hshifted, Nat.or_comm,
    Nat.mul_comm, ← Nat.two_pow_add_eq_or_of_lt hacc, Nat.add_comm]

/-- A code does not cross the end of the packer's byte (R25). -/
theorem State.Inv.pOff_add_width_le {s : State} (h : s.Inv) : s.pOff.toNat + s.width ≤ 8 := by
  by_cases full : s.pOff.toNat + s.width = 8
  · exact full.le
  · exact (offset_add_width h.width h.pOff_mod h.pOff_lt full).2.le

theorem State.Inv.accWith_toNat {s : State} (h : s.Inv) (imm : Byte) :
    (s.accWith imm).toNat = s.pAcc.toNat + imm.toNat % 2 ^ s.width * 2 ^ s.pOff.toNat := by
  rw [State.accWith, insert_toNat h.pAcc_lt (h.widthOk.maskCode_lt imm) h.pOff_add_width_le,
    h.widthOk.maskCode_toNat]

/-- The packer after a code that leaves its byte partial, in the words of R121. -/
theorem State.Inv.insertCode_spec {s : State} (h : s.Inv) (imm : Byte) : s.insertCode imm = { s with
    pAcc := BitVec.ofNat 8 (s.pAcc.toNat + imm.toNat % 2 ^ s.width * 2 ^ s.pOff.toNat),
    pOff := BitVec.ofNat 4 (s.pOff.toNat + s.width) } := by
  rw [← h.accWith_toNat, BitVec.ofNat_toNat, BitVec.setWidth_eq]
  rfl

/-! ### The commands -/

/-- A PACK that leaves the byte partial (R121). -/
theorem exec_pack_of_room {s : State} (room : s.pOff.toNat + s.width ≠ 8) (imm : Byte) :
    exec (.pack imm) s = .next ((s.insertCode imm).respond opcPack 0) :=
  congrArg Host.Outcome.next (if_neg room)

/-- A PACK that completes the byte (R121). -/
theorem exec_pack_of_full {s : State} (full : s.pOff.toNat + s.width = 8) (imm : Byte) :
    exec (.pack imm) s = .next (s.emitByte (s.accWith imm) opcPack) :=
  congrArg Host.Outcome.next (if_pos full)

/-- A PCOMMIT with no partial byte (R122). -/
theorem exec_pcommit_of_empty {s : State} (empty : s.pOff = 0) : exec .pcommit s = .next (s.respond opcPcommit 0) :=
  congrArg Host.Outcome.next (if_neg (by simp [empty]))

/-- A PCOMMIT of a partial byte (R122). -/
theorem exec_pcommit_of_partial {s : State} (partialByte : s.pOff ≠ 0) :
    exec .pcommit s = .next (s.emitByte s.pAcc opcPcommit) :=
  congrArg Host.Outcome.next (if_pos (by bv_omega))

/-- Settles O30: PBIND sets the packer's three registers and answers 0. -/
theorem pbindStartsASession : Obligations.PbindStartsASession := fun s dst =>
  congrArg Host.Outcome.next ((s.setPacker 0 0 dst).respond_spec opcPbind 0)

/-- Settles O31: the new accumulator is a sum, which the offset either leaves in P_ACC or sends to the memory. -/
theorem packAddsOneCode : Obligations.PackAddsOneCode := by
  intro s code h
  refine ⟨?room, ?full, ?refused⟩
  case room =>
    intro room
    rw [exec_pack_of_room room, State.respond_spec, h.insertCode_spec]
    rfl
  case full =>
    intro full fits
    refine ⟨s.mem.write s.pPtr.toNat (s.accWith code), ?_, Memory.write_size _ _ _, ?_,
      fun a ha => Memory.read_write_other h.mem_wf ha _⟩
    · rw [exec_pack_of_full full, State.emitByte_of_fits fits, State.respond_spec, State.storeByte_spec]
      rfl
    · rw [Memory.read_write_same h.mem_wf fits]
      exact h.accWith_toNat code
  case refused =>
    intro full outside
    rw [exec_pack_of_full full, State.emitByte_of_outside outside, State.raise_spec]
    rfl

/-- Settles O32: a partial byte is appended as it is, and without one there is only the answer. -/
theorem pcommitFlushesThePartialByte : Obligations.PcommitFlushesThePartialByte := by
  intro s hwf
  refine ⟨?empty, ?stored, ?refused⟩
  case empty =>
    intro empty
    rw [exec_pcommit_of_empty empty, State.respond_spec]
    rfl
  case stored =>
    intro partialByte fits
    refine ⟨s.mem.write s.pPtr.toNat s.pAcc, ?_, Memory.write_size _ _ _, Memory.read_write_same hwf fits _,
      fun a ha => Memory.read_write_other hwf ha _⟩
    rw [exec_pcommit_of_partial partialByte, State.emitByte_of_fits fits, State.respond_spec, State.storeByte_spec]
    rfl
  case refused =>
    intro partialByte outside
    rw [exec_pcommit_of_partial partialByte, State.emitByte_of_outside outside, State.raise_spec]
    rfl

end Sys2Proof.Machine
end

section
/-! PROOF. A packing session (spec/41_packer.md R123, R124). After PBIND and some PACKs, the bytes written are the whole
bytes of the codes' number and the accumulator is what is left of it; this holds after PBIND, each PACK keeps it, and
PCOMMIT writes the rest. -/

namespace Sys2Proof.Machine

/-! ### Bytes written from an address on -/

/-- `m` is `m₀` with the first `B` bytes of the number `v` from address `d` on, modulo 2^32 (R121, R123). -/
structure Memory.WithBytes (m₀ : Memory) (d v B : Nat) (m : Memory) : Prop where
  size : m.size = m₀.size
  written : ∀ k, k < B → (m.read ((d + k) % 2 ^ 32)).toNat = byteOf v k
  frame : ∀ a, (∀ k, k < B → a ≠ (d + k) % 2 ^ 32) → m.read a = m₀.read a

theorem Memory.withBytes_zero (m : Memory) (d v : Nat) : m.WithBytes d v 0 m where
  size := rfl
  written k hk := absurd hk k.not_lt_zero
  frame _ _ := rfl

/-- Only the bytes that are written count. -/
theorem Memory.WithBytes.congr {m₀ m : Memory} {d v v' B : Nat} (h : m₀.WithBytes d v B m)
    (hv : ∀ k, k < B → byteOf v' k = byteOf v k) : m₀.WithBytes d v' B m :=
  { h with written := fun k hk => (h.written k hk).trans (hv k hk).symm }

/-- The next byte goes to an address that none of fewer than 2^32 bytes has. -/
theorem Memory.WithBytes.write {m₀ m : Memory} {d v B : Nat} (h : m₀.WithBytes d v B m) (hwf : m.wf = true)
    (hB : B < 2 ^ 32) (hin : (d + B) % 2 ^ 32 < m.size) {b : Byte} (hb : b.toNat = byteOf v B) :
    m₀.WithBytes d v (B + 1) (m.write ((d + B) % 2 ^ 32) b) where
  size := (Memory.write_size _ _ _).trans h.size
  written k hk := by
    obtain hlt | rfl := Nat.lt_succ_iff_lt_or_eq.mp hk
    · have hne : (d + k) % 2 ^ 32 ≠ (d + B) % 2 ^ 32 := by omega
      rw [Memory.read_write_other hwf hne, h.written k hlt]
    · rw [Memory.read_write_same hwf hin, hb]
  frame a ha := by
    rw [Memory.read_write_other hwf (ha B B.lt_succ_self)]
    exact h.frame a fun k hk => ha k (Nat.lt_succ_of_lt hk)

/-- `B` bytes from `d` on, modulo 2^32, are bytes of `M`, each one once. -/
def Memory.HasRoom (m : Memory) (d B : Nat) : Prop := B ≤ 2 ^ 32 ∧ ∀ k, k < B → (d + k) % 2 ^ 32 < m.size

/-! ### Answers without error -/

/-- From `s` to `t` every command has answered with code 0. -/
def State.AnsweredOk (s t : State) : Prop := ∃ rs, t.responses = s.responses ++ rs ∧ ∀ r ∈ rs, r.code = 0

/-- CODE is the low field of the RESP word (R82). -/
theorem code_respWord (c : BitVec 4) (opc : Byte) (v : Word) : Response.code ⟨respWord c opc, v⟩ = c := by
  have hlow : (c.setWidth 32).extractLsb' 0 4 = c := by
    simpa using extractLsb'_placed (k := 0) c (by decide)
  rw [Response.code, respWord, BitVec.extractLsb'_or, hlow, extractLsb'_placed_of_apart opc (.inl (by decide)),
    BitVec.or_zero]

theorem State.AnsweredOk.respond {s t : State} (h : s.AnsweredOk t) (opc : Byte) (v : Word) :
    s.AnsweredOk (t.respond opc v) := by
  obtain ⟨rs, hrs, hok⟩ := h
  refine ⟨rs ++ [⟨respWord 0 opc, v⟩], ?_, ?_⟩
  · rw [State.respond_spec, hrs, List.append_assoc]
  · intro r hr
    obtain hr | hr := List.mem_append.mp hr
    · exact hok r hr
    · rw [List.mem_singleton.mp hr]; exact code_respWord 0 opc v

/-! ### The packer's output -/

/-- From `s` on, the packer's output from `d` has grown without error to the first `B` bytes of the number `v`, and `t` is
where it stands. -/
structure State.Output (s : State) (d : Word) (v B : Nat) (t : State) : Prop where
  inv : t.Inv
  w : t.w = s.w
  answered : s.AnsweredOk t
  ptr : t.pPtr = BitVec.ofNat 32 (d.toNat + B)
  mem : s.mem.WithBytes d.toNat v B t.mem

theorem State.Output.width {s t : State} {d : Word} {v B : Nat} (h : s.Output d v B t) : t.width = s.width :=
  congrArg BitVec.toNat h.w

theorem State.Output.congr {s t : State} {d : Word} {v v' B : Nat} (h : s.Output d v B t)
    (hv : ∀ k, k < B → byteOf v' k = byteOf v k) : s.Output d v' B t :=
  { h with mem := h.mem.congr hv }

theorem State.Output.respond {s t : State} {d : Word} {v B : Nat} (h : s.Output d v B t) (opc : Byte) (x : Word) :
    s.Output d v B (t.respond opc x) :=
  { h with inv := h.inv.respond opc x, answered := h.answered.respond opc x }

/-- P_PTR is the address of the next byte. -/
theorem State.Output.ptr_toNat {s t : State} {d : Word} {v B : Nat} (h : s.Output d v B t) :
    t.pPtr.toNat = (d.toNat + B) % 2 ^ 32 := by
  rw [h.ptr, BitVec.toNat_ofNat]

theorem State.storeByte_mem (s : State) (b : Byte) : (s.storeByte b).mem = s.mem.write s.pPtr.toNat b := rfl

theorem State.storeByte_pPtr (s : State) (b : Byte) : (s.storeByte b).pPtr = s.pPtr + 1 := rfl

/-- Appending the next byte of the number, which leaves the packer's byte empty. -/
theorem State.Output.emitByte {s t : State} {d : Word} {v B B' : Nat} (h : s.Output d v B t)
    (room : s.mem.HasRoom d.toNat B') (hB : B < B') {b : Byte} (hb : b.toNat = byteOf v B) (opc : Byte) :
    s.Output d v (B + 1) (t.emitByte b opc) ∧ (t.emitByte b opc).pOff = 0 ∧ (t.emitByte b opc).pAcc = 0 := by
  obtain ⟨hmax, hin⟩ := room
  have hfits : (d.toNat + B) % 2 ^ 32 < t.mem.size := h.mem.size ▸ hin B hB
  have hptr : (t.storeByte b).pPtr = BitVec.ofNat 32 (d.toNat + (B + 1)) := by
    rw [State.storeByte_pPtr, h.ptr]
    exact (BitVec.ofNat_add (d.toNat + B) 1).symm
  have hmem : s.mem.WithBytes d.toNat v (B + 1) (t.storeByte b).mem := by
    rw [State.storeByte_mem, h.ptr_toNat]
    exact h.mem.write h.inv.mem_wf (hB.trans_le hmax) hfits hb
  have hstored : s.Output d v (B + 1) (t.storeByte b) := ⟨h.inv.storeByte b, h.w, h.answered, hptr, hmem⟩
  rw [State.emitByte_of_fits (h.ptr_toNat ▸ hfits)]
  exact ⟨hstored.respond opc 1, rfl, rfl⟩

/-- A code of the output, read at its place in its byte, is the digit of the number (R53, R54). -/
theorem State.Output.code {s t : State} {d : Word} {v B j : Nat} (h : s.Output d v B t)
    (hj : j / (8 / s.width) < B) :
    (t.mem.read ((d.toNat + j / (8 / s.width)) % 2 ^ 32)).toNat / 2 ^ (j % (8 / s.width) * s.width) % 2 ^ s.width =
      v / 2 ^ (j * s.width) % 2 ^ s.width := by
  have hlegal : legalWidth s.width = true := h.width ▸ h.inv.width
  rw [h.mem.written _ hj, byteOf_code hlegal]

/-! ### The commands of a session -/

/-- `t` is where the packer stands when `s` has run PBIND d and the codes have been packed without error: the number's
whole bytes are written and the rest of it waits in P_ACC. -/
structure State.Packing (s : State) (d : Word) (codes : List Byte) (t : State) : Prop where
  output : s.Output d (packedValue s.width codes) (codes.length * s.width / 8) t
  off : t.pOff.toNat = codes.length * s.width % 8
  acc : t.pAcc.toNat = packedValue s.width codes / 2 ^ (8 * (codes.length * s.width / 8))

/-- PBIND begins with no code (R120). -/
theorem State.Inv.packing_pbind {s : State} (h : s.Inv) (d : Word) :
    s.Packing d [] ((s.setPacker 0 0 d).respond opcPbind 0) := by
  have hbound : s.Output d 0 0 (s.setPacker 0 0 d) :=
    ⟨h.setPacker d (Nat.zero_mod _) (by decide) (by decide), rfl, ⟨[], (List.append_nil _).symm, by simp⟩, by simp,
      s.mem.withBytes_zero d.toNat 0⟩
  exact ⟨by simpa using hbound.respond opcPbind 0, by simp [State.respond], by simp [State.respond]⟩

theorem bits_concat (n : Nat) (codes : List Byte) (c : Byte) :
    (codes ++ [c]).length * n = codes.length * n + n := by
  rw [List.length_append, List.length_singleton, Nat.succ_mul]

/-- A further code leaves the bytes written as they are. -/
theorem State.Packing.output_concat {s t : State} {d : Word} {codes : List Byte} (h : s.Packing d codes t) (c : Byte) :
    s.Output d (packedValue s.width (codes ++ [c])) (codes.length * s.width / 8) t :=
  h.output.congr fun k hk => by rw [packedValue_concat, byteOf_insert _ _ hk]

/-- With a further code in it, the accumulator is what is left of the codes' number. -/
theorem State.Packing.accWith_toNat {s t : State} {d : Word} {codes : List Byte} (h : s.Packing d codes t) (c : Byte) :
    (t.accWith c).toNat = packedValue s.width (codes ++ [c]) / 2 ^ (8 * (codes.length * s.width / 8)) := by
  rw [h.output.inv.accWith_toNat, h.acc, h.off, h.output.width, packedValue_concat, insert_div]

/-- A PACK with room left in the byte: the code waits there with the rest of the number (R121). -/
theorem State.Packing.pack_of_room {s t : State} {d : Word} {codes : List Byte} (h : s.Packing d codes t)
    (room : t.pOff.toNat + t.width ≠ 8) (c : Byte) :
    s.Packing d (codes ++ [c]) ((t.insertCode c).respond opcPack 0) := by
  have hinv := h.output.inv
  have hbits := bits_concat s.width codes c
  obtain ⟨-, hlt⟩ := offset_add_width hinv.width hinv.pOff_mod hinv.pOff_lt room
  have hoff : (t.insertCode c).pOff.toNat = t.pOff.toNat + t.width := offset_toNat hlt
  rw [h.off, h.output.width] at hlt hoff
  have hdiv : (codes ++ [c]).length * s.width / 8 = codes.length * s.width / 8 := by omega
  have hkept : s.Output d (packedValue s.width (codes ++ [c])) (codes.length * s.width / 8) (t.insertCode c) :=
    { h.output_concat c with inv := hinv.insertCode c room }
  refine ⟨hdiv ▸ hkept.respond opcPack 0, hoff.trans (by omega), ?_⟩
  rw [hdiv]
  exact h.accWith_toNat c

/-- A PACK that completes the byte: it is the number's next, and nothing is left (R121). -/
theorem State.Packing.pack_of_full {s t : State} {d : Word} {codes : List Byte} (h : s.Packing d codes t)
    (full : t.pOff.toNat + t.width = 8) {B : Nat} (room : s.mem.HasRoom d.toNat B) {c : Byte}
    (hB : (codes ++ [c]).length * s.width ≤ 8 * B) : s.Packing d (codes ++ [c]) (t.emitByte (t.accWith c) opcPack) := by
  rw [h.off, h.output.width] at full
  have hbits := bits_concat s.width codes c
  have hnext : (codes ++ [c]).length * s.width = 8 * (codes.length * s.width / 8 + 1) := by omega
  have hlt : packedValue s.width (codes ++ [c]) < 2 ^ (8 * (codes.length * s.width / 8 + 1)) :=
    hnext ▸ packedValue_lt s.width (codes ++ [c])
  have hbyte : (t.accWith c).toNat = byteOf (packedValue s.width (codes ++ [c])) (codes.length * s.width / 8) :=
    (h.accWith_toNat c).trans (byteOf_of_lt hlt).symm
  obtain ⟨hgrown, hoff, hacc⟩ := (h.output_concat c).emitByte room (by omega) hbyte opcPack
  have hdiv : (codes ++ [c]).length * s.width / 8 = codes.length * s.width / 8 + 1 := by omega
  have hmod : (codes ++ [c]).length * s.width % 8 = 0 := by omega
  refine ⟨hdiv ▸ hgrown, ?_, ?_⟩
  · rw [hoff, hmod]; rfl
  · rw [hacc, hdiv, Nat.div_eq_of_lt hlt]; rfl

/-- A PACK with room for its code in `M` adds the code to those packed. -/
theorem State.Packing.pack {s t : State} {d : Word} {codes : List Byte} (h : s.Packing d codes t) {B : Nat}
    (room : s.mem.HasRoom d.toNat B) {c : Byte} (hB : (codes ++ [c]).length * s.width ≤ 8 * B) :
    ∃ u, exec (.pack c) t = .next u ∧ s.Packing d (codes ++ [c]) u := by
  by_cases full : t.pOff.toNat + t.width = 8
  · exact ⟨_, exec_pack_of_full full c, h.pack_of_full full room hB⟩
  · exact ⟨_, exec_pack_of_room full c, h.pack_of_room full c⟩

/-- PCOMMIT writes what is left of the number, if anything is (R122). -/
theorem State.Packing.commit {s t : State} {d : Word} {codes : List Byte} (h : s.Packing d codes t)
    (room : s.mem.HasRoom d.toNat (ceilDiv (codes.length * s.width) 8)) :
    ∃ u, exec .pcommit t = .next u ∧
      s.Output d (packedValue s.width codes) (ceilDiv (codes.length * s.width) 8) u ∧ u.pOff = 0 ∧ u.pAcc = 0 := by
  obtain ⟨hout, hoff, hacc⟩ := h
  by_cases empty : t.pOff = 0
  · have hacc0 : t.pAcc = 0 := by
      have hlt := hout.inv.pAcc_lt
      rw [empty] at hlt
      exact BitVec.eq_of_toNat_eq (Nat.lt_one_iff.mp hlt)
    have hoff0 : t.pOff.toNat = 0 := by rw [empty]; rfl
    have hwhole : ceilDiv (codes.length * s.width) 8 = codes.length * s.width / 8 := by unfold ceilDiv; omega
    exact ⟨_, exec_pcommit_of_empty empty, hwhole ▸ hout.respond opcPcommit 0, empty, hacc0⟩
  · have hpos : t.pOff.toNat ≠ 0 := fun h0 => empty (BitVec.eq_of_toNat_eq h0)
    have hmore : ceilDiv (codes.length * s.width) 8 = codes.length * s.width / 8 + 1 := by unfold ceilDiv; omega
    have hlt : packedValue s.width codes < 2 ^ (8 * (codes.length * s.width / 8 + 1)) :=
      (packedValue_lt s.width codes).trans_le (Nat.pow_le_pow_right (by decide) (by omega))
    have hlast : t.pAcc.toNat = byteOf (packedValue s.width codes) (codes.length * s.width / 8) :=
      hacc.trans (byteOf_of_lt hlt).symm
    rw [hmore] at room ⊢
    exact ⟨_, exec_pcommit_of_partial empty, hout.emitByte room (Nat.lt_succ_self _) hlast opcPcommit⟩

/-! ### The whole session -/

/-- Commands that follow others run at the state that those leave (R61). -/
theorem runCommands_append_of_some {is : List Instr} {s t : State} (h : runCommands is s = some t)
    (js : List Instr) : runCommands (is ++ js) s = runCommands js t := by
  induction is generalizing s with
  | nil => cases h; rfl
  | cons i is ih =>
    cases hexec : exec i s with
    | next u =>
      rw [runCommands_cons_of_next hexec] at h
      rw [List.cons_append, runCommands_cons_of_next hexec, ih h]
    | fault r => simp [runCommands, hexec, nextState] at h
    | refused r => simp [runCommands, hexec, nextState] at h

/-- One more command after a run. -/
theorem runCommands_concat_of_next {is : List Instr} {s t u : State} (h : runCommands is s = some t) {i : Instr}
    (hexec : exec i t = .next u) : runCommands (is ++ [i]) s = some u := by
  rw [runCommands_append_of_some h, runCommands_singleton, hexec]
  rfl

/-- Where the output has room, PBIND and any PACKs leave the packer with their codes, by induction on the codes. -/
theorem State.Inv.runCommands_pack {s : State} (h : s.Inv) (d : Word) {B : Nat} (room : s.mem.HasRoom d.toNat B)
    (codes : List Byte) (hB : codes.length * s.width ≤ 8 * B) :
    ∃ t, runCommands (.pbind d :: codes.map .pack) s = some t ∧ s.Packing d codes t := by
  induction codes using List.reverseRecOn with
  | nil => exact ⟨_, rfl, h.packing_pbind d⟩
  | append_singleton codes c ih =>
    have hfewer : codes.length * s.width ≤ (codes ++ [c]).length * s.width :=
      Nat.mul_le_mul_right _ (List.length_append ▸ Nat.le_add_right _ _)
    obtain ⟨t, hrun, hpacking⟩ := ih (hfewer.trans hB)
    obtain ⟨u, hexec, hpacked⟩ := hpacking.pack room hB
    refine ⟨u, ?_, hpacked⟩
    rw [List.map_append, List.map_singleton, ← List.cons_append]
    exact runCommands_concat_of_next hrun hexec

theorem le_mul_ceilDiv (a : Nat) : a ≤ 8 * ceilDiv a 8 := by unfold ceilDiv; omega

/-- A whole session writes the bytes of the codes' number and leaves the packer's byte empty (R123). -/
theorem State.Inv.runCommands_packingSession {s : State} (h : s.Inv) (d : Word) (codes : List Byte)
    (room : s.mem.HasRoom d.toNat (ceilDiv (codes.length * s.width) 8)) :
    ∃ t, runCommands (.pbind d :: codes.map .pack ++ [.pcommit]) s = some t ∧
      s.Output d (packedValue s.width codes) (ceilDiv (codes.length * s.width) 8) t ∧ t.pOff = 0 ∧ t.pAcc = 0 := by
  obtain ⟨t, hrun, hpacking⟩ := h.runCommands_pack d room codes (le_mul_ceilDiv _)
  obtain ⟨u, hexec, hout⟩ := hpacking.commit room
  exact ⟨u, runCommands_concat_of_next hrun hexec, hout⟩

/-- Every code lies in the bytes that the codes need. -/
theorem codeByte_lt {n L j : Nat} (hn : legalWidth n = true) (hj : j < L) : j / (8 / n) < ceilDiv (L * n) 8 := by
  obtain ⟨hplace, hin⟩ := codePlace_bits hn j
  have hbits : j * n + n ≤ L * n := by
    rw [← Nat.succ_mul]; exact Nat.mul_le_mul_right n hj
  have hpos : 0 < n := by obtain rfl | rfl | rfl | rfl := legalWidth_iff.mp hn <;> decide
  unfold ceilDiv
  omega

/-- Settles O33: the output is the codes' number byte by byte, and the codes are the digits of that number. -/
theorem packingSessionWritesTheCodes : Obligations.PackingSessionWritesTheCodes := by
  intro s d codes h hmax hin
  obtain ⟨t, hrun, hout, hoff, hacc⟩ := h.runCommands_packingSession d codes ⟨hmax, hin⟩
  refine ⟨t, hrun, hout.answered, hout.ptr, hoff, hacc, ?codes, ?padding, hout.mem.frame⟩
  case codes =>
    intro j hj
    exact (hout.code (codeByte_lt h.width hj)).trans (packedValue_digit s.width codes j hj)
  case padding =>
    intro j hj hlast
    exact (hout.code (Nat.div_lt_of_lt_mul (Nat.mul_comm _ _ ▸ hlast))).trans (packedValue_digit_above s.width codes hj)

end Sys2Proof.Machine
end

section
/-! PROOF. The streaming unpacker's commands (spec/42_unpacker.md R140 to R142), one equation for each way a command can
go. Whether bytes are left decides alone between UNPACK's success and its error, and it is what UFIN answers. -/

namespace Sys2Proof.Machine

/-! ### What a command answers -/

/-- A command that succeeds answers code 0 and its value (R9, R82). -/
theorem answer_respond (s : State) (opc : Byte) (v : Word) :
    answer (.next (s.respond opc v)) = some ⟨respWord 0 opc, v⟩ := List.getLast?_concat ..

/-- A command that fails answers its error's code and the value 0 (R203). -/
theorem answer_raise (s : State) (e : ErrCode) (opc : Byte) :
    answer (.next (s.raise e opc)) = some ⟨respWord e.code opc, 0⟩ := List.getLast?_concat ..

/-! ### UBIND -/

/-- UBIND of a range of `M` (R140). -/
theorem exec_ubind_of_holds {s : State} {src len : Word} (fits : s.mem.Holds src.toNat len.toNat) :
    exec (.ubind src len) s = .next ((s.setUnpacker src len 0).respond opcUbind 0) :=
  congrArg Host.Outcome.next (if_pos (Memory.inRange_holds.mpr fits))

/-- UBIND of a range that is not in `M` (R140). -/
theorem exec_ubind_of_outside {s : State} {src len : Word} (outside : ¬ s.mem.Holds src.toNat len.toNat) :
    exec (.ubind src len) s = .next (s.raise .busError opcUbind) :=
  congrArg Host.Outcome.next (if_neg (mt Memory.inRange_holds.mp outside))

/-- An empty range is one whose length, as a word, is 0 (R55). -/
theorem Memory.holds_word_iff {m : Memory} {a : Nat} {len : Word} :
    m.Holds a len.toNat ↔ len = 0 ∨ a + len.toNat ≤ m.size :=
  or_congr_left (BitVec.toNat_inj (y := 0))

/-- Settles O34: the range check of UBIND, which binds the buffer or raises BusError. -/
theorem ubindBindsARangeOfMemory : Obligations.UbindBindsARangeOfMemory := by
  intro s src len
  by_cases fits : len = 0 ∨ src.toNat + len.toNat ≤ s.mem.size
  · rw [exec_ubind_of_holds (Memory.holds_word_iff.mpr fits), State.respond_spec, if_pos fits]
    rfl
  · rw [exec_ubind_of_outside (mt Memory.holds_word_iff.mp fits), State.raise_spec, if_neg fits]
    rfl

/-! ### UNPACK -/

/-- With nothing left, UNPACK fails with BufferUnderrun (R141). -/
theorem exec_unpack_of_finished {s : State} (finished : s.uRem = 0) :
    exec .unpack s = .next (s.raise .bufferUnderrun opcUnpack) := if_pos finished

/-- Past a code that is not the last of its byte, only the offset moves (R141). -/
theorem State.advanceUnpacker_of_within {s : State} (within : s.uOff.toNat + s.width ≠ 8) :
    s.advanceUnpacker = s.setUnpacker s.uPtr s.uRem (BitVec.ofNat 4 (s.uOff.toNat + s.width)) := if_neg within

/-- Past the last code of a byte, the unpacker is at the start of the next one, in the words of R141. -/
theorem State.advanceUnpacker_of_last {s : State} (last : s.uOff.toNat + s.width = 8) (left : s.uRem ≠ 0) :
    s.advanceUnpacker =
      s.setUnpacker (BitVec.ofNat 32 (s.uPtr.toNat + 1)) (BitVec.ofNat 32 (s.uRem.toNat - 1)) 0 := by
  have hptr : BitVec.ofNat 32 (s.uPtr.toNat + 1) = s.uPtr + 1 := by bv_omega
  have hrem : BitVec.ofNat 32 (s.uRem.toNat - 1) = s.uRem - 1 := by bv_omega
  rw [hptr, hrem]
  exact if_pos last

/-- Settles O35: with nothing left UNPACK fails, and else it answers the code at U_OFF and moves within the byte or past
it. -/
theorem unpackTakesTheNextCode : Obligations.UnpackTakesTheNextCode := by
  intro s h
  refine ⟨?finished, ?within, ?last⟩
  case finished =>
    intro finished
    rw [exec_unpack_of_finished finished, State.raise_spec]
    rfl
  case within =>
    intro left within
    rw [exec_unpack_of_left h left, State.respond_spec, State.advanceUnpacker_of_within within]
    rfl
  case last =>
    intro left last
    rw [exec_unpack_of_left h left, State.respond_spec, State.advanceUnpacker_of_last last left]
    rfl

/-- Where bytes are left, UNPACK answers the code at U_OFF of the byte at U_PTR (R141). -/
theorem answer_unpack_of_left {s : State} (h : s.Inv) (left : s.uRem ≠ 0) : answer (exec .unpack s) =
    some ⟨respWord 0 opcUnpack,
      BitVec.ofNat 32 ((s.mem.read s.uPtr.toNat).toNat / 2 ^ s.uOff.toNat % 2 ^ s.width)⟩ := by
  rw [exec_unpack_of_left h left, answer_respond]

theorem answer_unpack_of_finished {s : State} (finished : s.uRem = 0) :
    answer (exec .unpack s) = some ⟨respWord ErrCode.bufferUnderrun.code opcUnpack, 0⟩ := by
  rw [exec_unpack_of_finished finished, answer_raise]

/-- UNPACK succeeds exactly where bytes are left (R141). -/
theorem unpack_succeeds_iff {s : State} (h : s.Inv) :
    (∃ v : Word, answer (exec .unpack s) = some ⟨respWord 0 opcUnpack, v⟩) ↔ s.uRem ≠ 0 := by
  constructor
  · rintro ⟨v, hanswer⟩ finished
    rw [answer_unpack_of_finished finished] at hanswer
    have hcode : respWord ErrCode.bufferUnderrun.code opcUnpack = respWord 0 opcUnpack :=
      congrArg Response.resp (Option.some.inj hanswer)
    exact absurd hcode (by decide)
  · exact fun left => ⟨_, answer_unpack_of_left h left⟩

/-! ### UFIN -/

/-- UFIN answers FIN as a word (R29, R142). -/
theorem exec_ufin (s : State) : exec .ufin s = .next (s.respond opcUfin (if s.uRem = 0 then 1 else 0)) := by
  have hfin : s.fin.setWidth 32 = if s.uRem = 0 then 1 else 0 := apply_ite (BitVec.setWidth 32) _ 1 0
  rw [← hfin]
  rfl

theorem answer_ufin (s : State) :
    answer (exec .ufin s) = some ⟨respWord 0 opcUfin, if s.uRem = 0 then 1 else 0⟩ := by
  rw [exec_ufin, answer_respond]

theorem answer_ufin_of_finished {s : State} (finished : s.uRem = 0) :
    answer (exec .ufin s) = some ⟨respWord 0 opcUfin, 1⟩ := by
  rw [answer_ufin, if_pos finished]

theorem answer_ufin_of_left {s : State} (left : s.uRem ≠ 0) :
    answer (exec .ufin s) = some ⟨respWord 0 opcUfin, 0⟩ := by
  rw [answer_ufin, if_neg left]

theorem answer_ufin_eq_zero_iff {s : State} :
    answer (exec .ufin s) = some ⟨respWord 0 opcUfin, 0⟩ ↔ s.uRem ≠ 0 := by
  refine ⟨fun hanswer finished => ?_, answer_ufin_of_left⟩
  rw [answer_ufin_of_finished finished] at hanswer
  have hvalue : (1 : Word) = 0 := congrArg Response.value (Option.some.inj hanswer)
  exact absurd hvalue (by decide)

/-- After a command that leaves no byte to read, UFIN answers 1 (R142). -/
theorem runCommands_ufin_of_finished {i : Instr} {s t : State} (h : exec i s = .next t) (finished : t.uRem = 0) :
    ∃ u, runCommands [i, .ufin] s = some u ∧ u.responses.getLast? = some ⟨respWord 0 opcUfin, 1⟩ := by
  refine ⟨t.respond opcUfin 1, ?_, answer_respond t opcUfin 1⟩
  rw [runCommands_cons_of_next h, runCommands_singleton, exec_ufin, if_pos finished]
  rfl

/-- Settles O36: what UFIN answers and whether UNPACK succeeds both turn on U_REM alone, which reset, SETW and an empty
UBIND set to 0. -/
theorem ufinTellsWhetherUnpackWillSucceed : Obligations.UfinTellsWhetherUnpackWillSucceed := by
  refine ⟨?ufin, answer_ufin_of_finished rfl, ?setw, ?ubind, fun s h => ?unpack⟩
  case ufin =>
    intro s
    rw [exec_ufin, State.respond_spec]
    rfl
  case setw =>
    intro s n hn
    exact runCommands_ufin_of_finished (exec_setw_of_legal (legalWidth_toNat_iff.mpr hn) s) rfl
  case ubind =>
    intro s a
    exact runCommands_ufin_of_finished (exec_ubind_of_holds (.inl rfl)) rfl
  case unpack => exact answer_ufin_eq_zero_iff.trans (unpack_succeeds_iff h).symm

end Sys2Proof.Machine
end

section
/-! PROOF. An unpacking session (spec/42_unpacker.md R143, R144). After UBIND and k UNPACKs the unpacker has passed
k * N bits: U_PTR and U_REM count the whole bytes among them and U_OFF the bits beyond. This holds after UBIND and each
UNPACK keeps it; R54's place of code k is that position, so the UNPACK after k others answers code k, and after the last
code of the buffer no byte is left. -/

namespace Sys2Proof.Machine

theorem legalWidth_bounds {n : Nat} (hn : legalWidth n = true) : 0 < n ∧ n ≤ 8 := by
  obtain rfl | rfl | rfl | rfl := legalWidth_iff.mp hn <;> decide

/-- The place of code `j` (R54) in bits: its byte is the whole bytes of the bits before it, its bit in that byte the
rest. -/
theorem codePlace_div_mod {n : Nat} (hn : legalWidth n = true) (j : Nat) :
    j / (8 / n) = j * n / 8 ∧ j % (8 / n) * n = j * n % 8 := by
  obtain ⟨hplace, hin⟩ := codePlace_bits hn j
  have hpos := (legalWidth_bounds hn).1
  omega

/-- `t` is where the unpacker stands when `s` has bound the `len` bytes at `a` and taken `k` codes from them. -/
structure State.Unpacking (s : State) (a len : Word) (k : Nat) (t : State) : Prop where
  inv : t.Inv
  w : t.w = s.w
  mem : t.mem = s.mem
  ptr : t.uPtr.toNat = (a.toNat + k * s.width / 8) % 2 ^ 32
  rem : t.uRem.toNat + k * s.width / 8 = len.toNat
  off : t.uOff.toNat = k * s.width % 8

/-! ### The commands of a session -/

/-- UBIND begins with no code taken (R140). -/
theorem State.Inv.unpacking_ubind {s : State} (h : s.Inv) {a len : Word} (fits : s.mem.Holds a.toNat len.toNat) :
    s.Unpacking a len 0 ((s.setUnpacker a len 0).respond opcUbind 0) where
  inv := (h.bind (Memory.inRange_holds.mpr fits)).respond opcUbind 0
  w := rfl
  mem := rfl
  ptr := by simp [State.respond, Nat.mod_eq_of_lt a.isLt]
  rem := by simp [State.respond]
  off := by simp [State.respond]

section session

variable {s t : State} {a len : Word} {k : Nat}

theorem State.Unpacking.width (h : s.Unpacking a len k t) : t.width = s.width := congrArg BitVec.toNat h.w

theorem State.Unpacking.legal (h : s.Unpacking a len k t) : legalWidth s.width = true := h.width ▸ h.inv.width

/-- Bytes are left exactly as long as not all of the buffer's codes are taken (R143). -/
theorem State.Unpacking.left_iff (h : s.Unpacking a len k t) : t.uRem ≠ 0 ↔ k < len.toNat * (8 / s.width) := by
  obtain ⟨hpos, hle⟩ := legalWidth_bounds h.legal
  have hrem := h.rem
  rw [← Nat.div_lt_iff_lt_mul (Nat.div_pos hle hpos), (codePlace_div_mod h.legal k).1]
  bv_omega

theorem State.Unpacking.respond (h : s.Unpacking a len k t) (opc : Byte) (v : Word) :
    s.Unpacking a len k (t.respond opc v) :=
  { h with inv := h.inv.respond opc v }

/-- Moving past a code counts it, whether it was the last of its byte or not (R141). -/
theorem State.Unpacking.advanceUnpacker (h : s.Unpacking a len k t) (left : t.uRem ≠ 0) :
    s.Unpacking a len (k + 1) t.advanceUnpacker := by
  have hwidth := h.width
  obtain ⟨hinv, hw, hmem, hptr, hrem, hoff⟩ := h
  have hbits : (k + 1) * s.width = k * s.width + s.width := Nat.succ_mul k s.width
  have hadvanced := hinv.advanceUnpacker left
  by_cases last : t.uOff.toNat + t.width = 8
  · rw [State.advanceUnpacker_of_last last left] at hadvanced ⊢
    rw [hoff, hwidth] at last
    have hdiv : (k + 1) * s.width / 8 = k * s.width / 8 + 1 := by omega
    have hmod : (k + 1) * s.width % 8 = 0 := by omega
    refine ⟨hadvanced, hw, hmem, ?ptr, ?rem, ?off⟩
    case ptr => rw [State.setUnpacker_uPtr, BitVec.toNat_ofNat, hptr, hdiv, Nat.mod_add_mod, Nat.add_assoc]
    case rem => rw [State.setUnpacker_uRem, hdiv]; bv_omega
    case off => exact hmod.symm
  · obtain ⟨-, hlt⟩ := offset_add_width hinv.width hinv.uOff_mod hinv.uOff_lt last
    rw [State.advanceUnpacker_of_within last] at hadvanced ⊢
    have hdiv : (k + 1) * s.width / 8 = k * s.width / 8 := by omega
    refine ⟨hadvanced, hw, hmem, ?ptr, ?rem, ?off⟩
    case ptr => rw [State.setUnpacker_uPtr, hptr, hdiv]
    case rem => rw [State.setUnpacker_uRem, hdiv, hrem]
    case off => rw [State.setUnpacker_uOff, offset_toNat hlt]; omega

/-- An UNPACK while codes are left takes the next one. -/
theorem State.Unpacking.unpack (h : s.Unpacking a len k t) (hk : k < len.toNat * (8 / s.width)) :
    ∃ u, exec .unpack t = .next u ∧ s.Unpacking a len (k + 1) u :=
  have left := h.left_iff.mpr hk
  ⟨_, exec_unpack_of_left h.inv left, (h.advanceUnpacker left).respond opcUnpack _⟩

/-- The UNPACK after `k` others answers code `k` of the buffer (R54, R143). -/
theorem State.Unpacking.answer_unpack (h : s.Unpacking a len k t) (hk : k < len.toNat * (8 / s.width)) :
    answer (exec .unpack t) = some ⟨respWord 0 opcUnpack, BitVec.ofNat 32
      ((s.mem.read ((a.toNat + k / (8 / s.width)) % 2 ^ 32)).toNat / 2 ^ (k % (8 / s.width) * s.width) %
        2 ^ s.width)⟩ := by
  obtain ⟨hbyte, hbit⟩ := codePlace_div_mod h.legal k
  rw [answer_unpack_of_left h.inv (h.left_iff.mpr hk), h.ptr, h.off, h.mem, h.width, hbyte, hbit]

end session

/-! ### The whole session -/

/-- UBIND of a range of `M` and no more UNPACKs than the range holds codes, by induction on the UNPACKs. -/
theorem State.Inv.runCommands_unpack {s : State} (h : s.Inv) {a len : Word} (fits : s.mem.Holds a.toNat len.toNat)
    {k : Nat} (hk : k ≤ len.toNat * (8 / s.width)) :
    ∃ t, runCommands (.ubind a len :: List.replicate k .unpack) s = some t ∧ s.Unpacking a len k t := by
  induction k with
  | zero =>
    refine ⟨_, ?_, h.unpacking_ubind fits⟩
    rw [List.replicate_zero, runCommands_singleton, exec_ubind_of_holds fits]
    rfl
  | succ k ih =>
    obtain ⟨t, hrun, hunpacking⟩ := ih (Nat.le_of_succ_le hk)
    obtain ⟨u, hexec, htaken⟩ := hunpacking.unpack hk
    refine ⟨u, ?_, htaken⟩
    rw [List.replicate_succ', ← List.cons_append]
    exact runCommands_concat_of_next hrun hexec

/-- The addresses of a range of `M` do not wrap, since `M` has at most 2^32 bytes (R50). -/
theorem Memory.Holds.add_mod {m : Memory} {a n k : Nat} (h : m.Holds a n) (hwf : m.wf = true) (hk : k < n) :
    (a + k) % 2 ^ 32 = a + k := by
  obtain ⟨-, hsize, -⟩ := Memory.wf_iff.mp hwf
  have hend : a + n ≤ m.size := h.resolve_left (by omega)
  exact Nat.mod_eq_of_lt (by omega)

/-- Settles O37: after k UNPACKs the unpacker stands at code k, and after all of them no byte is left. -/
theorem unpackingSessionReadsEveryCode : Obligations.UnpackingSessionReadsEveryCode := by
  intro s a len h fits
  refine ⟨?codes, ?finished⟩
  case codes =>
    intro k hk
    obtain ⟨t, hrun, hunpacking⟩ := h.runCommands_unpack fits (Nat.le_of_lt hk)
    have hbyte : k / (8 / s.width) < len.toNat := Nat.div_lt_of_lt_mul (Nat.mul_comm _ _ ▸ hk)
    have hanswer := hunpacking.answer_unpack hk
    rw [fits.add_mod h.mem_wf hbyte] at hanswer
    exact ⟨t, hrun, hunpacking.mem, answer_ufin_of_left (hunpacking.left_iff.mpr hk), hanswer⟩
  case finished =>
    obtain ⟨t, hrun, hunpacking⟩ := h.runCommands_unpack fits (Nat.le_refl _)
    have finished : t.uRem = 0 := not_not.mp fun left => Nat.lt_irrefl _ (hunpacking.left_iff.mp left)
    exact ⟨t, hrun, hunpacking.mem, answer_ufin_of_finished finished, answer_unpack_of_finished finished⟩

/-! ### Packing, then unpacking -/

/-- A range of `M` has room for a packer's output. -/
theorem Memory.Holds.hasRoom {m : Memory} {d B : Nat} (h : m.Holds d B) (hwf : m.wf = true) : m.HasRoom d B := by
  obtain ⟨-, hsize, -⟩ := Memory.wf_iff.mp hwf
  refine ⟨by omega, fun k hk => ?_⟩
  rw [h.add_mod hwf hk]
  omega

/-- The digits of the codes' number are the codes, and 0 above them (R54). -/
theorem packedValue_getD (n : Nat) (codes : List Byte) (k : Nat) :
    packedValue n codes / 2 ^ (k * n) % 2 ^ n = (codes.getD k 0).toNat % 2 ^ n := by
  by_cases hk : k < codes.length
  · rw [packedValue_digit n codes k hk, List.getD_eq_getElem _ _ hk]
  · have hpast := Nat.le_of_not_lt hk
    rw [packedValue_digit_above n codes hpast, List.getD_eq_default _ _ hpast]
    exact (Nat.zero_mod _).symm

/-- A buffer that the packer wrote gives back the digits of its number (R54, R144). -/
theorem State.Output.runCommands_unpack {s p : State} {d len : Word} {v : Nat} (h : s.Output d v len.toNat p)
    (fits : s.mem.Holds d.toNat len.toNat) {k : Nat} (hk : k < len.toNat * (8 / s.width)) :
    ∃ t, runCommands (.ubind d len :: List.replicate k .unpack) p = some t ∧
      answer (exec .unpack t) =
        some ⟨respWord 0 opcUnpack, BitVec.ofNat 32 (v / 2 ^ (k * s.width) % 2 ^ s.width)⟩ := by
  have hfits : p.mem.Holds d.toNat len.toNat := by rw [Memory.Holds, h.mem.size]; exact fits
  have hbyte : k / (8 / s.width) < len.toNat := Nat.div_lt_of_lt_mul (Nat.mul_comm _ _ ▸ hk)
  have hcode := h.code hbyte
  rw [← h.width] at hk hcode ⊢
  obtain ⟨t, hrun, hunpacking⟩ := h.inv.runCommands_unpack hfits (Nat.le_of_lt hk)
  refine ⟨t, hrun, ?_⟩
  rw [hunpacking.answer_unpack hk, hcode]

/-- Settles O38: the UNPACKs answer the digits of the number whose bytes the packer wrote, and those are the codes. -/
theorem packedCodesUnpackInOrder : Obligations.PackedCodesUnpackInOrder := by
  intro s d codes h hmax fits k hk
  obtain ⟨p, hpack, hout, -, -⟩ := h.runCommands_packingSession d codes (fits.hasRoom h.mem_wf)
  have hlen : (BitVec.ofNat 32 (ceilDiv (codes.length * s.w.toNat) 8)).toNat =
      ceilDiv (codes.length * s.w.toNat) 8 := Nat.mod_eq_of_lt hmax
  obtain ⟨t, hunpack, hanswer⟩ :=
    State.Output.runCommands_unpack (hlen.symm ▸ hout) (hlen.symm ▸ fits) (hlen.symm ▸ hk)
  rw [packedValue_getD] at hanswer
  exact ⟨t, (runCommands_append_of_some hpack _).trans hunpack, hanswer⟩

end Sys2Proof.Machine
end

section
/-! PROOF. The quantizer's arithmetic and commands (spec/43_quantizer.md R160 to R167). At a legal width N, QFWD divides
a sample by 2^(8 - N), and QINV multiplies a code by SCALE whichever way INV_IMPL builds it, because each entry of the
table is that product. What the two do together rests on MASK * SCALE = 255. -/

namespace Sys2Proof.Machine

/-! ### Codes and their scale -/

section arithmetic

variable {n : Nat}

/-- `SCALE * MASK` is exactly 255 at each width of R22. -/
theorem maxCode_mul_scale (hn : legalWidth n = true) : (2 ^ n - 1) * (255 / (2 ^ n - 1)) = 255 := by
  obtain rfl | rfl | rfl | rfl := legalWidth_iff.mp hn <;> rfl

/-- A code reconstructs to a byte (R161). -/
theorem code_mul_scale_le (hn : legalWidth n = true) {c : Nat} (hc : c ≤ 2 ^ n - 1) : c * (255 / (2 ^ n - 1)) ≤ 255 :=
  (Nat.mul_le_mul_right _ hc).trans_eq (maxCode_mul_scale hn)

/-- The top N bits of a byte are a code (R160). -/
theorem topBits_le (hn : legalWidth n = true) (b : Byte) : b.toNat / 2 ^ (8 - n) ≤ 2 ^ n - 1 := by
  obtain rfl | rfl | rfl | rfl := legalWidth_iff.mp hn <;> norm_num <;> omega

/-- A reconstructed code has the code in its top N bits (R167). -/
theorem topBits_code_mul_scale (hn : legalWidth n = true) {c : Nat} (hc : c ≤ 2 ^ n - 1) :
    c * (255 / (2 ^ n - 1)) / 2 ^ (8 - n) = c := by
  obtain rfl | rfl | rfl | rfl := legalWidth_iff.mp hn <;> norm_num at hc ⊢ <;> omega

/-- The reconstruction of a byte's top N bits is off by less than 2^(8 - N), above or below (R166). -/
theorem topBits_mul_scale_error (hn : legalWidth n = true) (b : Byte) :
    b.toNat / 2 ^ (8 - n) * (255 / (2 ^ n - 1)) ≤ b.toNat + (2 ^ (8 - n) - 1) ∧
      b.toNat ≤ b.toNat / 2 ^ (8 - n) * (255 / (2 ^ n - 1)) + (2 ^ (8 - n) - 1) := by
  obtain rfl | rfl | rfl | rfl := legalWidth_iff.mp hn <;> norm_num <;> omega

/-- Every entry of the inverse table is its code times SCALE (R23, R163). -/
theorem invLut_getD (hn : legalWidth n = true) {c : Nat} (hc : c ≤ 2 ^ n - 1) :
    (invLut n).getD c 0 = c * (255 / (2 ^ n - 1)) := by
  obtain rfl | rfl | rfl | rfl := legalWidth_iff.mp hn
  case inr.inr.inr =>
    have hlt : c < 256 := Nat.lt_succ_of_le hc
    simp [invLut, hlt]
  all_goals revert c; decide

end arithmetic

/-! ### The two quantizers -/

section quantizers

variable {s : State}

/-- MASK is the largest code (R22). -/
theorem State.WidthOk.mask_toNat (h : s.WidthOk) : s.disp.mask.toNat = 2 ^ s.width - 1 := by
  rw [h.disp]
  obtain hw | hw | hw | hw := legalWidth_iff.mp h.width <;> rw [hw] <;> rfl

/-- Forward quantization keeps the top N bits (R160). -/
theorem State.WidthOk.quantize_toNat (h : s.WidthOk) (b : Byte) :
    (s.quantize b).toNat = b.toNat / 2 ^ (8 - s.width) := by
  rw [State.quantize, h.shift, BitVec.toNat_ushiftRight, Nat.shiftRight_eq_div_pow]
  rfl

/-- Inverse quantization is the product with SCALE, whichever way it is built (R161, R163). -/
theorem State.WidthOk.dequantize_eq (h : s.WidthOk) {c : Byte} (hc : c.toNat ≤ 2 ^ s.width - 1) :
    s.dequantize c = c.toNat * (255 / (2 ^ s.width - 1)) := by
  cases himpl : s.invImpl with
  | lut => simp only [State.dequantize, himpl, invLut_getD h.width hc]
  | scale =>
    simp only [State.dequantize, himpl, h.scale]
    rfl

/-- What lies at a place of a packed buffer is a code (R53). -/
theorem State.WidthOk.codeAt_le (h : s.WidthOk) (b : Byte) (o : Nat) : (s.codeAt b o).toNat ≤ 2 ^ s.width - 1 := by
  rw [h.codeAt_toNat]
  exact Nat.le_sub_one_of_lt (Nat.mod_lt _ (Nat.two_pow_pos _))

end quantizers

/-! ### The commands -/

section commands

variable {s : State}

theorem State.WidthOk.exec_qfwd (h : s.WidthOk) (b : Byte) :
    exec (.qfwd b) s = .next (s.respond opcQfwd (BitVec.ofNat 32 (b.toNat / 2 ^ (8 - s.width)))) := by
  rw [← h.quantize_toNat, BitVec.ofNat_toNat]
  rfl

/-- QINV of a code in [0, MASK] (R161). -/
theorem State.WidthOk.exec_qinv_of_code (h : s.WidthOk) {c : Byte} (hc : c.toNat ≤ 2 ^ s.width - 1) :
    exec (.qinv c) s = .next (s.respond opcQinv (BitVec.ofNat 32 (c.toNat * (255 / (2 ^ s.width - 1))))) := by
  have hin : ¬ s.disp.mask < c := by rw [BitVec.lt_def, h.mask_toNat]; exact Nat.not_lt.mpr hc
  rw [← h.dequantize_eq hc]
  exact congrArg Host.Outcome.next (if_neg hin)

/-- QINV of a number above MASK (R161). -/
theorem State.WidthOk.exec_qinv_of_above (h : s.WidthOk) {c : Byte} (hc : ¬ c.toNat ≤ 2 ^ s.width - 1) :
    exec (.qinv c) s = .next (s.raise .codeRange opcQinv) := by
  have habove : s.disp.mask < c := by rw [BitVec.lt_def, h.mask_toNat]; exact Nat.not_le.mp hc
  exact congrArg Host.Outcome.next (if_pos habove)

theorem State.WidthOk.answer_qfwd (h : s.WidthOk) (b : Byte) : answer (exec (.qfwd b) s) =
    some ⟨respWord 0 opcQfwd, BitVec.ofNat 32 (b.toNat / 2 ^ (8 - s.width))⟩ := by
  rw [h.exec_qfwd, answer_respond]

theorem State.WidthOk.answer_qinv (h : s.WidthOk) {c : Byte} (hc : c.toNat ≤ 2 ^ s.width - 1) :
    answer (exec (.qinv c) s) =
      some ⟨respWord 0 opcQinv, BitVec.ofNat 32 (c.toNat * (255 / (2 ^ s.width - 1)))⟩ := by
  rw [h.exec_qinv_of_code hc, answer_respond]

end commands

/-- Settles O22: QFWD is a response whose value is the quotient. -/
theorem qfwdKeepsTheTopBits : Obligations.QfwdKeepsTheTopBits := by
  intro s b h
  rw [h.exec_qfwd, State.respond_spec]
  rfl

/-- Settles O23, by whether the immediate is a code. -/
theorem qinvScalesACodeOrRefuses : Obligations.QinvScalesACodeOrRefuses := by
  intro s c h
  by_cases hc : c.toNat ≤ 2 ^ s.w.toNat - 1
  · rw [h.exec_qinv_of_code hc, State.respond_spec, if_pos hc]
    rfl
  · rw [h.exec_qinv_of_above hc, State.raise_spec, if_neg hc]
    rfl

/-! ### What the values satisfy -/

/-- A byte's value in a response is the byte (R82). -/
theorem toNat_setWidth_ofNat {v : Nat} (hv : v ≤ 255) : ((BitVec.ofNat 32 v).setWidth 8).toNat = v := by
  rw [BitVec.toNat_setWidth, BitVec.toNat_ofNat]
  omega

/-- As values of responses, byte-sized numbers keep their order (R82). -/
theorem ofNat_toNat_le {u v : Nat} (huv : u ≤ v) (hv : v ≤ 255) :
    (BitVec.ofNat 32 u).toNat ≤ (BitVec.ofNat 32 v).toNat := by
  rw [BitVec.toNat_ofNat, BitVec.toNat_ofNat]
  omega

/-- Settles O26: division by 2^(8 - N) and multiplication by SCALE keep the order. -/
theorem quantizersAreMonotone : Obligations.QuantizersAreMonotone := by
  intro s a b h hab
  refine ⟨⟨_, _, h.answer_qfwd a, h.answer_qfwd b, ?forward⟩,
    fun hb => ⟨_, _, h.answer_qinv (hab.trans hb), h.answer_qinv hb, ?inverse⟩⟩
  case forward =>
    exact ofNat_toNat_le (Nat.div_le_div_right hab) ((Nat.div_le_self _ _).trans (Nat.le_of_lt_succ b.isLt))
  case inverse => exact ofNat_toNat_le (Nat.mul_le_mul_right _ hab) (code_mul_scale_le h.width hb)

/-- Settles O28: the value QFWD answers is a code, which QINV accepts, and both values are bytes. -/
theorem reconstructionErrorIsBounded : Obligations.ReconstructionErrorIsBounded := by
  intro s b h
  have hcode := topBits_le h.width b
  have hvalue : b.toNat / 2 ^ (8 - s.width) ≤ 255 := (Nat.div_le_self _ _).trans (Nat.le_of_lt_succ b.isLt)
  have hback := toNat_setWidth_ofNat hvalue
  have hanswer := h.answer_qinv (hback.trans_le hcode)
  rw [hback] at hanswer
  refine ⟨_, _, h.answer_qfwd b, hanswer, ?_⟩
  rw [BitVec.toNat_ofNat, Nat.mod_eq_of_lt ((code_mul_scale_le h.width hcode).trans_lt (by decide))]
  exact topBits_mul_scale_error h.width b

/-- Settles O29: the value QINV answers is a byte, whose top N bits are the code. -/
theorem quantizingAReconstructedCodeGivesItBack : Obligations.QuantizingAReconstructedCodeGivesItBack := by
  intro s c h hc
  refine ⟨_, h.answer_qinv hc, ?_⟩
  rw [h.answer_qfwd, toNat_setWidth_ofNat (code_mul_scale_le h.width hc), topBits_code_mul_scale h.width hc,
    BitVec.ofNat_toNat]
  rfl

/-- Settles O24: at width 8 the divisor and SCALE are 1, and every byte is a code. -/
theorem widthEightIsLossless : Obligations.WidthEightIsLossless := by
  intro s b h hw
  have hwidth : s.width = 8 := congrArg BitVec.toNat hw
  have hcode : b.toNat ≤ 2 ^ s.width - 1 := by rw [hwidth]; exact Nat.le_of_lt_succ b.isLt
  rw [h.answer_qfwd, h.answer_qinv hcode, hwidth, ← BitVec.ofNat_toNat]
  simp [respWord]

/-- Settles O27: the largest code is a byte, and SCALE times it is 255. -/
theorem largestCodeReconstructsTo255 : Obligations.LargestCodeReconstructsTo255 := by
  intro s h
  have hmax : s.disp.mask.toNat ≤ 2 ^ s.width - 1 := h.mask_toNat.le
  rw [← h.mask, h.answer_qinv hmax, h.mask_toNat, maxCode_mul_scale h.width]
  rfl

end Sys2Proof.Machine
end

section
/-! PROOF. The codec commands (spec/44_codec.md R181 to R184), one equation for each way a command can go, and what their
work leaves in `M`. The loop of DECODE and DECODE_RAW reads a buffer that is apart from its output, so each sample is that
of the memory it began with: the code at its place times SCALE. ENCODE's own packer goes, sample by sample, where the
streaming packer goes under one PACK of each quantized sample, so what is proved of a packing session holds of it. -/

namespace Sys2Proof.Machine

/-! ### The checks decide -/

section checks

variable {s : State} {src len dst count L : Word} {e : ErrCode}

theorem exec_encode_of_some (hcheck : s.mem.codecCheck src.toNat L.toNat dst.toNat (s.packedBytes L) = some e) :
    exec (.encode src dst L) s = .next (s.raise e opcEncode) := by
  simp only [exec, execEncode, hcheck]

theorem exec_encode_of_none (hcheck : s.mem.codecCheck src.toNat L.toNat dst.toNat (s.packedBytes L) = none) :
    exec (.encode src dst L) s = .next ((s.setMem (s.encodeMem src.toNat dst.toNat L.toNat)).respond opcEncode
      (BitVec.ofNat 32 (s.packedBytes L))) := by
  simp only [exec, execEncode, hcheck]

theorem exec_decode_of_some (hcheck : s.mem.codecCheck src.toNat len.toNat dst.toNat count.toNat = some e) :
    exec (.decode src len dst count) s = .next (s.raise e opcDecode) := by
  simp only [exec, execDecode, hcheck]

/-- After the range checks DECODE looks at the count (R183). -/
theorem exec_decode_of_none (hcheck : s.mem.codecCheck src.toNat len.toNat dst.toNat count.toNat = none) :
    exec (.decode src len dst count) s = .next (if s.codesIn len < count.toNat then s.raise .countOverrun opcDecode
      else (s.setMem (s.decodeLoop src.toNat dst.toNat count.toNat 0 s.mem)).respond opcDecode count) := by
  simp only [exec, execDecode, hcheck]

theorem exec_decodeRaw_of_some (hcheck : s.mem.codecCheck src.toNat len.toNat dst.toNat (s.codesIn len) = some e) :
    exec (.decodeRaw src len dst) s = .next (s.raise e opcDecodeRaw) := by
  simp only [exec, execDecodeRaw, hcheck]

theorem exec_decodeRaw_of_none (hcheck : s.mem.codecCheck src.toNat len.toNat dst.toNat (s.codesIn len) = none) :
    exec (.decodeRaw src len dst) s =
      .next ((s.setMem (s.decodeLoop src.toNat dst.toNat (s.codesIn len) 0 s.mem)).respond opcDecodeRaw
        (BitVec.ofNat 32 (s.codesIn len))) := by
  simp only [exec, execDecodeRaw, hcheck]

end checks

/-! ### The codes of a buffer -/

/-- Code `j` of the packed buffer at `a`, read at its place (R53, R54). -/
def Memory.bufferCode (m : Memory) (n a j : Nat) : Nat :=
  (m.read (a + j / (8 / n))).toNat / 2 ^ (j % (8 / n) * n) % 2 ^ n

theorem Memory.bufferCode_le (m : Memory) (n a j : Nat) : m.bufferCode n a j ≤ 2 ^ n - 1 :=
  Nat.le_sub_one_of_lt (Nat.mod_lt _ (Nat.two_pow_pos n))

/-- A byte is settled by its codes: bit `i` is a bit of code `i / n`. -/
theorem byte_eq_of_codes {n : Nat} (hn : legalWidth n = true) {b c : Byte}
    (h : ∀ i, i < 8 / n → b.toNat / 2 ^ (i * n) % 2 ^ n = c.toNat / 2 ^ (i * n) % 2 ^ n) : b = c := by
  obtain ⟨hpos, -⟩ := legalWidth_bounds hn
  apply BitVec.eq_of_getLsbD_eq
  intro i hi
  have hcode : i / n < 8 / n := by obtain rfl | rfl | rfl | rfl := legalWidth_iff.mp hn <;> omega
  have hbit := congrArg (·.testBit (i % n)) (h (i / n) hcode)
  simpa [Nat.testBit_mod_two_pow, Nat.testBit_div_two_pow, Nat.mod_lt i hpos, Nat.mod_add_div', BitVec.getLsbD]
    using hbit

/-- Buffers with the same codes are the same bytes. -/
theorem Memory.read_eq_of_bufferCode {n : Nat} (hn : legalWidth n = true) {m m' : Memory} {a b len : Nat}
    (h : ∀ j, j < len * (8 / n) → m.bufferCode n a j = m'.bufferCode n b j) {k : Nat} (hk : k < len) :
    m.read (a + k) = m'.read (b + k) := by
  refine byte_eq_of_codes hn fun i hi => ?_
  have hdiv : (k * (8 / n) + i) / (8 / n) = k := by
    rw [Nat.mul_comm, Nat.mul_add_div (Nat.zero_lt_of_lt hi), Nat.div_eq_of_lt hi, Nat.add_zero]
  have hmod : (k * (8 / n) + i) % (8 / n) = i := by
    rw [Nat.mul_comm, Nat.mul_add_mod, Nat.mod_eq_of_lt hi]
  have hlt : k * (8 / n) + i < len * (8 / n) := by
    calc k * (8 / n) + i < (k + 1) * (8 / n) := by rw [Nat.succ_mul]; omega
      _ ≤ len * (8 / n) := Nat.mul_le_mul_right _ hk
  have hcodes := h _ hlt
  rwa [Memory.bufferCode, Memory.bufferCode, hdiv, hmod] at hcodes

/-! ### What DECODE and DECODE_RAW write -/

/-- A sample is its code times SCALE (R183). -/
theorem State.WidthOk.sampleAt_toNat {s : State} (h : s.WidthOk) (m : Memory) (src j : Nat) :
    (s.sampleAt m src j).toNat = m.bufferCode s.width src j * (255 / (2 ^ s.width - 1)) := by
  have hcode : (s.codeAt (m.read (src + j / s.disp.cpb)) (j % s.disp.cpb * s.width)).toNat =
      m.bufferCode s.width src j := by
    rw [h.codeAt_toNat, h.cpb]
    rfl
  have hbyte := code_mul_scale_le h.width (m.bufferCode_le s.width src j)
  rw [State.sampleAt, h.dequantize_eq (h.codeAt_le _ _), hcode, BitVec.toNat_ofNat]
  exact Nat.mod_eq_of_lt (Nat.lt_succ_of_le hbyte)

/-- A write outside the code's byte does not change the sample. -/
theorem State.sampleAt_write (s : State) {m : Memory} (hwf : m.wf = true) {src j a : Nat}
    (ha : src + j / s.disp.cpb ≠ a) (b : Byte) : s.sampleAt (m.write a b) src j = s.sampleAt m src j := by
  rw [State.sampleAt, Memory.read_write_other hwf ha, State.sampleAt]

/-- The loop of DECODE and DECODE_RAW leaves at `dst + i` the sample of the memory it began with, where the bytes it reads
are apart from those it writes, by induction on the samples. -/
theorem State.decodeLoop_read (s : State) {src dst k j i : Nat} {m : Memory} (hwf : m.wf = true)
    (hin : dst + j + k ≤ m.size)
    (hsrc : ∀ x, x < j + k → src + x / s.disp.cpb < dst + j ∨ dst + j + k ≤ src + x / s.disp.cpb)
    (hji : j ≤ i) (hik : i < j + k) : (s.decodeLoop src dst k j m).read (dst + i) = s.sampleAt m src i := by
  induction k generalizing j m with
  | zero => omega
  | succ k ih =>
    have hwf' := Memory.write_wf hwf (dst + j) (s.sampleAt m src j)
    rw [State.decodeLoop_succ]
    obtain rfl | hlt := Nat.eq_or_lt_of_le hji
    · rw [s.decodeLoop_frame _ _ _ _ hwf' (.inl (by omega)), Memory.read_write_same hwf (by omega)]
    · have hne : src + i / s.disp.cpb ≠ dst + j := by have := hsrc i hik; omega
      have hsrc' : ∀ x, x < j + 1 + k →
          src + x / s.disp.cpb < dst + (j + 1) ∨ dst + (j + 1) + k ≤ src + x / s.disp.cpb := fun x hx => by
        have := hsrc x (by omega)
        omega
      rw [ih hwf' (by rw [Memory.write_size]; omega) hsrc' hlt (by omega), s.sampleAt_write hwf hne]

/-- Every code of a buffer is in one of its bytes. -/
theorem div_codesPerByte_lt {n len j : Nat} (hj : j < len * (8 / n)) : j / (8 / n) < len :=
  Nat.div_lt_of_lt_mul (Nat.mul_comm _ _ ▸ hj)

/-- What the loop writes for a buffer that is apart from its output: each code times SCALE (R184). -/
theorem State.Inv.decodeLoop_sample {s : State} (h : s.Inv) {src len dst count : Nat}
    (fits : s.mem.Holds dst count) (apart : Apart src len dst count) (hcount : count ≤ len * (8 / s.width))
    {j : Nat} (hj : j < count) : ((s.decodeLoop src dst count 0 s.mem).read (dst + j)).toNat =
      s.mem.bufferCode s.width src j * (255 / (2 ^ s.width - 1)) := by
  have hin : dst + count ≤ s.mem.size := fits.resolve_left (by omega)
  have hsrc : ∀ x, x < 0 + count → src + x / s.disp.cpb < dst + 0 ∨ dst + 0 + count ≤ src + x / s.disp.cpb := by
    intro x hx
    have hbyte : x / (8 / s.width) < len := div_codesPerByte_lt (by omega)
    rw [h.widthOk.cpb]
    change x / (8 / s.w.toNat) < len at hbyte
    generalize x / (8 / s.w.toNat) = k at hbyte ⊢
    obtain hempty | hempty | hbelow | habove := apart <;> omega
  rw [s.decodeLoop_read h.mem_wf hin hsrc (Nat.zero_le j) (by omega), h.widthOk.sampleAt_toNat]

/-! ### ENCODE's packer beside the streaming packer -/

/-- The codes that ENCODE packs: the quantized samples (R182). -/
def State.quantized (s : State) (src L : Nat) : List Byte :=
  (List.range L).map fun j => s.quantize (s.mem.read (src + j))

@[simp] theorem State.quantized_length (s : State) (src L : Nat) : (s.quantized src L).length = L := by
  simp [State.quantized]

theorem State.quantized_succ (s : State) (src L : Nat) :
    s.quantized src (L + 1) = s.quantized src L ++ [s.quantize (s.mem.read (src + L))] := by
  simp [State.quantized, List.range_succ]

/-- ENCODE's own packer stands at `r` where the streaming packer stands at `t`, when `s` has run PBIND and one
PACK of each of the codes (R180, R187). -/
structure State.Encoding (s : State) (d : Word) (codes : List Byte) (r : PackRun) (t : State) : Prop where
  run : runCommands (.pbind d :: codes.map .pack) s = some t
  packing : s.Packing d codes t
  acc : r.acc = t.pAcc
  off : r.off = t.pOff.toNat
  ptr : r.ptr = d.toNat + codes.length * s.width / 8
  mem : r.mem = t.mem

theorem State.Inv.encoding_pbind {s : State} (h : s.Inv) (d : Word) :
    s.Encoding d [] ⟨0, 0, d.toNat, s.mem⟩ ((s.setPacker 0 0 d).respond opcPbind 0) where
  run := rfl
  packing := h.packing_pbind d
  acc := rfl
  off := rfl
  ptr := by simp
  mem := rfl

section encoding

variable {s t : State} {d : Word} {codes : List Byte} {r : PackRun} {B : Nat}

/-- Masking a code is the same at every state of one width. -/
theorem State.Packing.maskCode (h : s.Packing d codes t) (hs : s.Inv) (c : Byte) : t.maskCode c = s.maskCode c := by
  rw [State.maskCode, State.maskCode, h.output.inv.disp, hs.disp, h.output.width]

/-- The two packers write at the same address while the output has room. -/
theorem State.Encoding.ptr_eq (h : s.Encoding d codes r t) (hs : s.Inv) (fits : s.mem.Holds d.toNat B)
    (hB : codes.length * s.width / 8 < B) : r.ptr = t.pPtr.toNat := by
  rw [h.ptr, h.packing.output.ptr_toNat, fits.add_mod hs.mem_wf hB]

/-- The address at which a packer with room left writes is in `M`. -/
theorem State.Packing.ptr_lt (h : s.Packing d codes t) (hs : s.Inv) (fits : s.mem.Holds d.toNat B)
    (hB : codes.length * s.width / 8 < B) : t.pPtr.toNat < t.mem.size := by
  rw [h.output.ptr_toNat, h.output.mem.size]
  exact (fits.hasRoom hs.mem_wf).2 _ hB

theorem State.Encoding.run_concat {u : State} (h : s.Encoding d codes r t) {c : Byte}
    (hexec : exec (.pack c) t = .next u) : runCommands (.pbind d :: (codes ++ [c]).map .pack) s = some u := by
  rw [List.map_append, List.map_singleton, ← List.cons_append]
  exact runCommands_concat_of_next h.run hexec

/-- Both packers put the code in at the same place. -/
theorem State.Encoding.accWith (h : s.Encoding d codes r t) (hs : s.Inv) (c : Byte) :
    r.acc ||| (s.maskCode c <<< r.off) = t.accWith c := by
  rw [State.accWith, h.acc, h.off, h.packing.maskCode hs]

/-- A code that leaves the byte partial waits in both packers (R121, R182). -/
theorem State.Encoding.pack_of_room (h : s.Encoding d codes r t) {c : Byte}
    (room : t.pOff.toNat + t.width ≠ 8) :
    s.Encoding d (codes ++ [c]) ⟨t.accWith c, t.pOff.toNat + s.width, r.ptr, r.mem⟩
      ((t.insertCode c).respond opcPack 0) := by
  have hinv := h.packing.output.inv
  have hwidth := h.packing.output.width
  have hoff := h.packing.off
  have hbits := bits_concat s.width codes c
  obtain ⟨-, hlt⟩ := offset_add_width hinv.width hinv.pOff_mod hinv.pOff_lt room
  refine ⟨h.run_concat (exec_pack_of_room room c), h.packing.pack_of_room room c, rfl, ?off, ?ptr, h.mem⟩
  case off => rw [← hwidth]; exact (offset_toNat hlt).symm
  case ptr => simp only [h.ptr]; omega

/-- A code that completes the byte sends it to the same address from both packers (R121, R182). -/
theorem State.Encoding.pack_of_full (h : s.Encoding d codes r t) (hs : s.Inv) (fits : s.mem.Holds d.toNat B)
    (full : t.pOff.toNat + t.width = 8) {c : Byte} (hB : (codes ++ [c]).length * s.width ≤ 8 * B) :
    s.Encoding d (codes ++ [c]) ⟨0, 0, r.ptr + 1, r.mem.write r.ptr (t.accWith c)⟩
      (t.emitByte (t.accWith c) opcPack) := by
  have hwidth := h.packing.output.width
  have hoff := h.packing.off
  have hbits := bits_concat s.width codes c
  have hnext : codes.length * s.width / 8 < B := by omega
  have hstored := State.emitByte_of_fits (h.packing.ptr_lt hs fits hnext) (t.accWith c) opcPack
  refine ⟨h.run_concat (exec_pack_of_full full c), h.packing.pack_of_full full (fits.hasRoom hs.mem_wf) hB,
    ?acc, ?off, ?ptr, ?mem⟩
  case acc => rw [hstored]; rfl
  case off => rw [hstored]; rfl
  case ptr => simp only [h.ptr]; omega
  case mem => rw [hstored, h.ptr_eq hs fits hnext, h.mem]; rfl

/-- One more code: ENCODE's packer goes where a PACK takes the streaming packer. -/
theorem State.Encoding.pack (h : s.Encoding d codes r t) (hs : s.Inv) (fits : s.mem.Holds d.toNat B) {c : Byte}
    (hB : (codes ++ [c]).length * s.width ≤ 8 * B) : ∃ u, s.Encoding d (codes ++ [c]) (s.packCode r c) u := by
  have hwidth := h.packing.output.width
  obtain ⟨full, hpacked⟩ | ⟨room, hpacked⟩ := s.packCode_spec r c
  · rw [h.off, ← hwidth] at full
    rw [hpacked, h.accWith hs]
    exact ⟨_, h.pack_of_full hs fits full hB⟩
  · rw [h.off, ← hwidth] at room
    rw [hpacked, h.accWith hs, h.off]
    exact ⟨_, h.pack_of_room room⟩

/-- What is packed so far has not touched a byte outside the output. -/
theorem State.Encoding.read_frame (h : s.Encoding d codes r t) (hs : s.Inv) (fits : s.mem.Holds d.toNat B)
    (hB : codes.length * s.width ≤ 8 * B) {a : Nat} (ha : a < d.toNat ∨ d.toNat + B ≤ a) :
    r.mem.read a = s.mem.read a := by
  rw [h.mem]
  refine h.packing.output.mem.frame a fun k hk => ?_
  rw [fits.add_mod hs.mem_wf (k := k) (by omega)]
  omega

/-- The loop of ENCODE, `k` samples from sample `i` on: it reads the samples that were there before it, because the source
is apart from the output, and each is one more code. -/
theorem State.Encoding.encodeLoop {src L : Nat} (hs : s.Inv) (fits : s.mem.Holds d.toNat B)
    (apart : Apart src L d.toNat B) (hB : L * s.width ≤ 8 * B) {k i : Nat} (hi : i + k = L)
    (h : s.Encoding d (s.quantized src i) r t) :
    ∃ u, s.Encoding d (s.quantized src L) (s.encodeLoop src k i r) u := by
  induction k generalizing i r t with
  | zero =>
    subst hi
    exact ⟨t, h⟩
  | succ k ih =>
    have hmore : (i + 1) * s.width ≤ 8 * B := (Nat.mul_le_mul_right _ (by omega)).trans hB
    have hnow : i * s.width ≤ 8 * B := (Nat.mul_le_mul_right _ (Nat.le_succ i)).trans hmore
    have hout : src + i < d.toNat ∨ d.toNat + B ≤ src + i := by
      obtain hempty | hempty | hbelow | habove := apart <;> omega
    have hread : r.mem.read (src + i) = s.mem.read (src + i) :=
      h.read_frame hs fits (by rw [State.quantized_length]; exact hnow) hout
    obtain ⟨u, hu⟩ := h.pack hs fits (c := s.quantize (s.mem.read (src + i)))
      (by rw [← State.quantized_succ, State.quantized_length]; exact hmore)
    rw [← State.quantized_succ] at hu
    rw [State.encodeLoop_succ, hread]
    exact ih (by omega) hu

/-- The end of ENCODE writes what PCOMMIT writes (R122, R182). -/
theorem State.Encoding.commit_mem {u : State} (h : s.Encoding d codes r t) (hs : s.Inv)
    (fits : s.mem.Holds d.toNat (ceilDiv (codes.length * s.width) 8)) (hexec : exec .pcommit t = .next u) :
    u.mem = r.commit := by
  have hoff := h.packing.off
  unfold PackRun.commit
  by_cases empty : t.pOff = 0
  · rw [exec_pcommit_of_empty empty] at hexec
    cases hexec
    rw [if_neg (by rw [h.off, empty]; decide), h.mem]
    rfl
  · have hpos : 0 < t.pOff.toNat := Nat.pos_of_ne_zero fun h0 => empty (BitVec.eq_of_toNat_eq h0)
    have hnext : codes.length * s.width / 8 < ceilDiv (codes.length * s.width) 8 := by unfold ceilDiv; omega
    rw [exec_pcommit_of_partial empty, State.emitByte_of_fits (h.packing.ptr_lt hs fits hnext)] at hexec
    cases hexec
    rw [if_pos (by rw [h.off]; exact hpos), h.mem, h.acc, h.ptr_eq hs fits hnext]
    rfl

end encoding

/-! ### What ENCODE leaves -/

/-- ENCODE leaves the memory of a packing session over the quantized samples (R187), where the ranges pass its checks. -/
theorem State.Inv.encodeMem_session {s : State} (h : s.Inv) {src L : Nat} {d : Word}
    (fits : s.mem.Holds d.toNat (ceilDiv (L * s.width) 8)) (apart : Apart src L d.toNat (ceilDiv (L * s.width) 8)) :
    ∃ u, runCommands (.pbind d :: (s.quantized src L).map .pack ++ [.pcommit]) s = some u ∧
      s.Output d (packedValue s.width (s.quantized src L)) (ceilDiv (L * s.width) 8) u ∧
      u.mem = s.encodeMem src d.toNat L := by
  obtain ⟨t, ht⟩ := State.Encoding.encodeLoop h fits apart (le_mul_ceilDiv _) (Nat.zero_add L) (h.encoding_pbind d)
  have hlen : (s.quantized src L).length = L := s.quantized_length src L
  rw [← hlen] at fits
  obtain ⟨u, hexec, hout, -, -⟩ := ht.packing.commit (fits.hasRoom h.mem_wf)
  rw [hlen] at hout
  exact ⟨u, runCommands_concat_of_next ht.run hexec, hout, ht.commit_mem h fits hexec⟩

/-- Code `j` that ENCODE leaves is the top N bits of sample `j` (R182). -/
theorem State.Inv.encodeMem_code {s : State} (h : s.Inv) {src L : Nat} {d : Word}
    (fits : s.mem.Holds d.toNat (ceilDiv (L * s.width) 8)) (apart : Apart src L d.toNat (ceilDiv (L * s.width) 8))
    {j : Nat} (hj : j < L) : (s.encodeMem src d.toNat L).bufferCode s.width d.toNat j =
      (s.mem.read (src + j)).toNat / 2 ^ (8 - s.width) := by
  obtain ⟨u, -, hout, hmem⟩ := h.encodeMem_session fits apart
  have hbyte := codeByte_lt h.width hj
  have hlen : j < (s.quantized src L).length := by rw [State.quantized_length]; exact hj
  have hcode := hout.code hbyte
  have htop := topBits_le h.width (s.mem.read (src + j))
  rw [fits.add_mod h.mem_wf hbyte, packedValue_digit _ _ j hlen, hmem] at hcode
  refine hcode.trans ?_
  simp only [State.quantized, List.getElem_map, List.getElem_range, h.widthOk.quantize_toNat]
  exact Nat.mod_eq_of_lt (by omega)

end Sys2Proof.Machine
end

section
/-! PROOF. The two ways of building the inverse quantizer cannot be told apart (spec/43_quantizer.md R163). INV_IMPL is
read by `State.dequantize` alone, and at a legal width that gives the same product either way for every code that QINV
lets through and for every code of a packed buffer. So every command commutes with a change of INV_IMPL. -/

namespace Sys2Proof.Machine

/-- The state in an implementation whose inverse quantizer is built as `p` says. -/
def State.withImpl (s : State) (p : InvImpl) : State := { s with invImpl := p }

/-! ### What the commands compute does not depend on INV_IMPL -/

section withImpl

variable {s : State}

@[simp] theorem State.withImpl_uRem (s : State) (p : InvImpl) : (s.withImpl p).uRem = s.uRem := rfl
@[simp] theorem State.withImpl_uPtr (s : State) (p : InvImpl) : (s.withImpl p).uPtr = s.uPtr := rfl
@[simp] theorem State.withImpl_mem (s : State) (p : InvImpl) : (s.withImpl p).mem = s.mem := rfl

theorem State.WidthOk.withImpl (h : s.WidthOk) (p : InvImpl) : (s.withImpl p).WidthOk := ⟨h.width, h.disp⟩

theorem State.WidthOk.dequantize_withImpl (h : s.WidthOk) (p : InvImpl) {c : Byte} (hc : c.toNat ≤ 2 ^ s.width - 1) :
    (s.withImpl p).dequantize c = s.dequantize c :=
  ((h.withImpl p).dequantize_eq hc).trans (h.dequantize_eq hc).symm

theorem State.WidthOk.sampleAt_withImpl (h : s.WidthOk) (p : InvImpl) (m : Memory) (src j : Nat) :
    (s.withImpl p).sampleAt m src j = s.sampleAt m src j :=
  congrArg (BitVec.ofNat 8) (h.dequantize_withImpl p (h.codeAt_le _ _))

/-- DECODE and DECODE_RAW write the same bytes, by induction on the samples. -/
theorem State.WidthOk.decodeLoop_withImpl (h : s.WidthOk) (p : InvImpl) (src dst k j : Nat) (m : Memory) :
    (s.withImpl p).decodeLoop src dst k j m = s.decodeLoop src dst k j m := by
  induction k generalizing j m with
  | zero => rfl
  | succ k ih => rw [State.decodeLoop_succ, State.decodeLoop_succ, h.sampleAt_withImpl, ih]

variable (s) (p : InvImpl)

theorem State.encodeLoop_withImpl (src k i : Nat) (r : PackRun) :
    (s.withImpl p).encodeLoop src k i r = s.encodeLoop src k i r := by
  induction k generalizing i r with
  | zero => rfl
  | succ k ih => exact ih (i + 1) _

theorem State.encodeMem_withImpl (src dst L : Nat) : (s.withImpl p).encodeMem src dst L = s.encodeMem src dst L :=
  congrArg PackRun.commit (s.encodeLoop_withImpl p src L 0 _)

end withImpl

/-! ### The commands commute with a change of INV_IMPL -/

/-- Command `i` does at `s` with INV_IMPL `p` what it does at `s`, and leaves INV_IMPL at `p`. -/
def State.ImplFree (s : State) (p : InvImpl) (i : Instr) : Prop :=
  nextState (exec i (s.withImpl p)) = (nextState (exec i s)).map (·.withImpl p)

section commands

variable {s : State} (p : InvImpl)

/-- A choice between two states that INV_IMPL has no part in. -/
theorem State.ite_withImpl {c : Prop} [Decidable c] {a b a' b' : State} (ha : a' = a.withImpl p)
    (hb : b' = b.withImpl p) : (if c then a' else b') = (if c then a else b).withImpl p := by
  rw [ha, hb]; exact (apply_ite (·.withImpl p) c a b).symm

theorem setw_implFree (imm : Byte) : s.ImplFree p (.setw imm) := congrArg some (State.ite_withImpl p rfl rfl)

theorem pack_implFree (imm : Byte) : s.ImplFree p (.pack imm) :=
  congrArg some (State.ite_withImpl p (State.ite_withImpl p rfl rfl) rfl)

theorem pcommit_implFree : s.ImplFree p .pcommit :=
  congrArg some (State.ite_withImpl p (State.ite_withImpl p rfl rfl) rfl)

theorem ubind_implFree (src len : Word) : s.ImplFree p (.ubind src len) :=
  congrArg some (State.ite_withImpl p rfl rfl)

theorem State.advanceUnpacker_withImpl : (s.withImpl p).advanceUnpacker = s.advanceUnpacker.withImpl p :=
  State.ite_withImpl p rfl rfl

theorem unpack_implFree : s.ImplFree p .unpack := by
  change nextState (execUnpack _) = (nextState (execUnpack s)).map _
  simp only [execUnpack, State.withImpl_uRem, State.withImpl_uPtr, State.withImpl_mem, State.advanceUnpacker_withImpl]
  split
  · rfl
  · split <;> rfl

theorem encode_implFree (src dst L : Word) : s.ImplFree p (.encode src dst L) := by
  cases hcheck : s.mem.codecCheck src.toNat L.toNat dst.toNat (s.packedBytes L) with
  | some e =>
    rw [State.ImplFree, exec_encode_of_some hcheck, exec_encode_of_some (s := s.withImpl p) hcheck]
    rfl
  | none =>
    rw [State.ImplFree, exec_encode_of_none hcheck, exec_encode_of_none (s := s.withImpl p) hcheck,
      State.encodeMem_withImpl]
    rfl

/-- The one command that answers a reconstructed code refuses those that the two ways would take apart (R161). -/
theorem State.WidthOk.qinv_implFree (h : s.WidthOk) (imm : Byte) : s.ImplFree p (.qinv imm) := by
  by_cases hc : imm.toNat ≤ 2 ^ s.width - 1
  · rw [State.ImplFree, h.exec_qinv_of_code hc, (h.withImpl p).exec_qinv_of_code hc]
    rfl
  · rw [State.ImplFree, h.exec_qinv_of_above hc, (h.withImpl p).exec_qinv_of_above hc]
    rfl

theorem State.WidthOk.decode_implFree (h : s.WidthOk) (src len dst count : Word) :
    s.ImplFree p (.decode src len dst count) := by
  cases hcheck : s.mem.codecCheck src.toNat len.toNat dst.toNat count.toNat with
  | some e =>
    rw [State.ImplFree, exec_decode_of_some hcheck, exec_decode_of_some (s := s.withImpl p) hcheck]
    rfl
  | none =>
    rw [State.ImplFree, exec_decode_of_none hcheck, exec_decode_of_none (s := s.withImpl p) hcheck,
      h.decodeLoop_withImpl]
    exact congrArg some (State.ite_withImpl p rfl rfl)

theorem State.WidthOk.decodeRaw_implFree (h : s.WidthOk) (src len dst : Word) :
    s.ImplFree p (.decodeRaw src len dst) := by
  cases hcheck : s.mem.codecCheck src.toNat len.toNat dst.toNat (s.codesIn len) with
  | some e =>
    rw [State.ImplFree, exec_decodeRaw_of_some hcheck, exec_decodeRaw_of_some (s := s.withImpl p) hcheck]
    rfl
  | none =>
    rw [State.ImplFree, exec_decodeRaw_of_none hcheck, exec_decodeRaw_of_none (s := s.withImpl p) hcheck,
      h.decodeLoop_withImpl]
    rfl

/-- No command tells the two ways apart; the commands of the first case read nothing that depends on INV_IMPL. -/
theorem State.WidthOk.exec_implFree (h : s.WidthOk) (i : Instr) : s.ImplFree p i := by
  cases i with
  | nop | clrerr | stat | rdpp | rdup | rdur | qfwd _ | pbind _ | ufin => rfl
  | setw imm => exact setw_implFree p imm
  | pack imm => exact pack_implFree p imm
  | pcommit => exact pcommit_implFree p
  | ubind src len => exact ubind_implFree p src len
  | unpack => exact unpack_implFree p
  | encode src dst L => exact encode_implFree p src dst L
  | qinv imm => exact h.qinv_implFree p imm
  | decode src len dst count => exact h.decode_implFree p src len dst count
  | decodeRaw src len dst => exact h.decodeRaw_implFree p src len dst

end commands

/-- Settles O25: every command commutes with the change from the table to the multiplier. -/
theorem lutAndScalingAgree : Obligations.LutAndScalingAgree := fun _ i h =>
  (h.withImpl .lut).exec_implFree .scale i

end Sys2Proof.Machine
end

section
/-! PROOF. A packed buffer that DECODE_RAW reconstructs and ENCODE packs again is the same bytes (spec/43_quantizer.md
R167): a reconstructed code has the code in its top N bits, so the second buffer has the codes of the first, and its codes
settle a byte. -/

namespace Sys2Proof.Machine

/-! ### Answers of two commands -/

theorem State.answeredOk_setMem (s : State) (m : Memory) : s.AnsweredOk (s.setMem m) :=
  ⟨[], (List.append_nil _).symm, by simp⟩

theorem State.AnsweredOk.trans {s t u : State} (hst : s.AnsweredOk t) (htu : t.AnsweredOk u) : s.AnsweredOk u := by
  obtain ⟨rs, hrs, hok⟩ := hst
  obtain ⟨rs', hrs', hok'⟩ := htu
  refine ⟨rs ++ rs', by rw [hrs', hrs, List.append_assoc], fun r hr => ?_⟩
  obtain hr | hr := List.mem_append.mp hr
  · exact hok r hr
  · exact hok' r hr

/-- What was answered from `s` on is what the later state's responses hold beyond those of `s`. -/
theorem State.AnsweredOk.code_of_mem_drop {s t : State} (h : s.AnsweredOk t) :
    ∀ r ∈ t.responses.drop s.responses.length, r.code = 0 := by
  obtain ⟨rs, hrs, hok⟩ := h
  rw [hrs, List.drop_left]
  exact hok

/-! ### DECODE_RAW, then ENCODE -/

/-- The codes of `len` bytes fill `len` bytes (R54). -/
theorem ceilDiv_codes {n : Nat} (hn : legalWidth n = true) (len : Nat) : ceilDiv (len * (8 / n) * n) 8 = len := by
  unfold ceilDiv
  obtain rfl | rfl | rfl | rfl := legalWidth_iff.mp hn <;> omega

/-- Of two ranges of `M` that are apart, neither is all of the 2^32 bytes that `M` can have (R50), unless the other is
empty. -/
theorem Memory.Holds.lt_of_apart {m : Memory} {a n b k : Nat} (h : m.Holds b k) (hn : m.Holds a n)
    (hwf : m.wf = true) (apart : Apart a n b k) (hpos : k ≠ 0 → n ≠ 0) : k < 2 ^ 32 := by
  obtain ⟨-, hsize, -⟩ := Memory.wf_iff.mp hwf
  unfold Apart at apart
  omega

section roundTrip

variable {s : State} {src len dst : Word}

/-- The number of a buffer's codes fits a word, where they fit `M` beside the buffer. -/
theorem State.Inv.codes_toNat (h : s.Inv) (hsrc : s.mem.Holds src.toNat len.toNat)
    (hdst : s.mem.Holds dst.toNat (len.toNat * (8 / s.width)))
    (apart : Apart src.toNat len.toNat dst.toNat (len.toNat * (8 / s.width))) :
    (BitVec.ofNat 32 (len.toNat * (8 / s.width))).toNat = len.toNat * (8 / s.width) := by
  rw [BitVec.toNat_ofNat]
  exact Nat.mod_eq_of_lt (hdst.lt_of_apart hsrc h.mem_wf apart (mt fun h0 => by simp [h0]))

/-- DECODE_RAW of ranges that pass its checks (R184). -/
theorem exec_decodeRaw_of_holds (h : s.WidthOk) (hsrc : s.mem.Holds src.toNat len.toNat)
    (hdst : s.mem.Holds dst.toNat (len.toNat * (8 / s.width)))
    (apart : Apart src.toNat len.toNat dst.toNat (len.toNat * (8 / s.width))) :
    ∃ t, exec (.decodeRaw src len dst) s = .next t ∧ s.AnsweredOk t ∧ t.w = s.w ∧
      t.mem = s.decodeLoop src.toNat dst.toNat (len.toNat * (8 / s.width)) 0 s.mem := by
  have hcodes : s.codesIn len = len.toNat * (8 / s.width) := congrArg (len.toNat * ·) h.cpb
  rw [← hcodes] at hdst apart ⊢
  exact ⟨_, exec_decodeRaw_of_none (Memory.codecCheck_none_iff.mpr ⟨hsrc, hdst, apart⟩),
    (s.answeredOk_setMem _).respond opcDecodeRaw _, rfl, rfl⟩

/-- ENCODE of `count` samples, where the ranges pass its checks (R182). -/
theorem exec_encode_of_holds {L : Word} {count : Nat} (hL : L.toNat = count) (hsrc : s.mem.Holds src.toNat count)
    (hdst : s.mem.Holds dst.toNat (ceilDiv (count * s.width) 8))
    (apart : Apart src.toNat count dst.toNat (ceilDiv (count * s.width) 8)) :
    ∃ t, exec (.encode src dst L) s = .next t ∧ s.AnsweredOk t ∧ t.mem = s.encodeMem src.toNat dst.toNat count := by
  subst hL
  exact ⟨_, exec_encode_of_none (Memory.codecCheck_none_iff.mpr ⟨hsrc, hdst, apart⟩),
    (s.answeredOk_setMem _).respond opcEncode _, rfl⟩

end roundTrip

/-- ENCODE of the samples that DECODE_RAW wrote: each is a code times SCALE, whose top N bits are the code, so the bytes
are those of the first buffer (R167). -/
theorem State.Inv.encodeMem_of_decoded {s t : State} (hs : s.Inv) (ht : t.Inv) (hw : t.w = s.w) {src dst len : Nat}
    {back : Word} (hmem : t.mem = s.decodeLoop src dst (len * (8 / s.width)) 0 s.mem)
    (hdst : s.mem.Holds dst (len * (8 / s.width))) (hdecApart : Apart src len dst (len * (8 / s.width)))
    (hback : t.mem.Holds back.toNat (ceilDiv (len * (8 / s.width) * t.width) 8))
    (hencApart : Apart dst (len * (8 / s.width)) back.toNat (ceilDiv (len * (8 / s.width) * t.width) 8))
    {k : Nat} (hk : k < len) :
    (t.encodeMem dst back.toNat (len * (8 / s.width))).read (back.toNat + k) = s.mem.read (src + k) := by
  have hwidth : t.width = s.width := congrArg BitVec.toNat hw
  refine Memory.read_eq_of_bufferCode hs.width (fun j hj => ?_) hk
  calc (t.encodeMem dst back.toNat (len * (8 / s.width))).bufferCode s.width back.toNat j
      = (t.mem.read (dst + j)).toNat / 2 ^ (8 - s.width) := by
        have hcode := ht.encodeMem_code hback hencApart hj
        rwa [hwidth] at hcode
    _ = s.mem.bufferCode s.width src j * (255 / (2 ^ s.width - 1)) / 2 ^ (8 - s.width) := by
        rw [hmem, hs.decodeLoop_sample hdst hdecApart (Nat.le_refl _) hj]
    _ = s.mem.bufferCode s.width src j := topBits_code_mul_scale hs.width (s.mem.bufferCode_le s.width src j)

/-- Settles O45: both commands pass their checks, and the second writes the codes of the first's source. -/
theorem decodedBufferEncodesToTheSameBytes : Obligations.DecodedBufferEncodesToTheSameBytes := by
  intro s src len dst back h hsrc hdst hback hdecApart hencApart
  obtain ⟨t, hdec, hdecOk, hw, hmem⟩ := exec_decodeRaw_of_holds h.widthOk hsrc hdst hdecApart
  have hsize : t.mem.size = s.mem.size := by rw [hmem, State.decodeLoop_size]
  have hwidth : t.width = s.width := congrArg BitVec.toNat hw
  have hbytes : ceilDiv (len.toNat * (8 / s.width) * t.width) 8 = len.toNat := by
    rw [hwidth]; exact ceilDiv_codes h.width len.toNat
  have hsamples : t.mem.Holds dst.toNat (len.toNat * (8 / s.width)) := by rw [Memory.Holds, hsize]; exact hdst
  have hout : t.mem.Holds back.toNat (ceilDiv (len.toNat * (8 / s.width) * t.width) 8) := by
    rw [hbytes, Memory.Holds, hsize]; exact hback
  have houtApart : Apart dst.toNat (len.toNat * (8 / s.width)) back.toNat
      (ceilDiv (len.toNat * (8 / s.width) * t.width) 8) := by rw [hbytes]; exact hencApart
  obtain ⟨u, henc, hencOk, hencoded⟩ :=
    exec_encode_of_holds (h.codes_toNat hsrc hdst hdecApart) hsamples hout houtApart
  refine ⟨t, u, hdec, henc, (hdecOk.trans hencOk).code_of_mem_drop, fun k hk => ?_⟩
  rw [hencoded]
  exact h.encodeMem_of_decoded (h.exec hdec) hw hmem hdst hdecApart hout houtApart hk

end Sys2Proof.Machine
end

section
/-! PROOF. How the codec commands decide and what they touch (spec/44_codec.md R180, R181). The error is that of the first
check that fails; and since no check and no loop looks at a streaming register, a codec command commutes with any change
of those registers. -/

namespace Sys2Proof.Machine

/-! ### The checks, in their order -/

/-- A range outside `M` comes first (R181). -/
theorem Memory.codecCheck_of_outside {m : Memory} {src n dst k : Nat} (h : ¬ (m.Holds src n ∧ m.Holds dst k)) :
    m.codecCheck src n dst k = some .busError := by
  simp only [← Memory.inRange_holds] at h
  obtain ⟨hcheck, -⟩ | ⟨-, hsrc, hdst, -⟩ | ⟨-, hsrc, hdst, -⟩ := m.codecCheck_spec src n dst k
  · exact hcheck
  · exact absurd ⟨hsrc, hdst⟩ h
  · exact absurd ⟨hsrc, hdst⟩ h

/-- A byte in both ranges comes second (R181). -/
theorem Memory.codecCheck_of_overlap {m : Memory} {src n dst k : Nat} (hsrc : m.Holds src n) (hdst : m.Holds dst k)
    (h : ¬ Apart src n dst k) : m.codecCheck src n dst k = some .overlap := by
  rw [← Memory.inRange_holds] at hsrc hdst
  rw [← overlaps_apart] at h
  obtain ⟨-, hfails | hfails⟩ | ⟨hcheck, -⟩ | ⟨-, -, -, hnone⟩ := m.codecCheck_spec src n dst k
  · exact absurd hsrc (hfails ▸ Bool.false_ne_true)
  · exact absurd hdst (hfails ▸ Bool.false_ne_true)
  · exact hcheck
  · exact absurd hnone h

theorem State.WidthOk.codesIn {s : State} (h : s.WidthOk) (len : Word) : s.codesIn len = len.toNat * (8 / s.width) :=
  congrArg (len.toNat * ·) h.cpb

section outcomes

variable {s : State} {src len dst count L : Word}

/-- ENCODE of ranges that pass the checks (R182). -/
theorem exec_encode_of_apart (hsrc : s.mem.Holds src.toNat L.toNat)
    (hdst : s.mem.Holds dst.toNat (ceilDiv (L.toNat * s.width) 8))
    (apart : Apart src.toNat L.toNat dst.toNat (ceilDiv (L.toNat * s.width) 8)) :
    exec (.encode src dst L) s = .next ((s.setMem (s.encodeMem src.toNat dst.toNat L.toNat)).respond opcEncode
      (BitVec.ofNat 32 (ceilDiv (L.toNat * s.width) 8))) :=
  exec_encode_of_none (Memory.codecCheck_none_iff.mpr ⟨hsrc, hdst, apart⟩)

/-- DECODE of ranges that pass the checks and a count of codes that the source holds (R183). -/
theorem exec_decode_of_apart (h : s.WidthOk) (hsrc : s.mem.Holds src.toNat len.toNat)
    (hdst : s.mem.Holds dst.toNat count.toNat) (apart : Apart src.toNat len.toNat dst.toNat count.toNat)
    (hcount : count.toNat ≤ len.toNat * (8 / s.width)) :
    exec (.decode src len dst count) s = .next ((s.setMem
      (s.decodeLoop src.toNat dst.toNat count.toNat 0 s.mem)).respond opcDecode count) := by
  rw [exec_decode_of_none (Memory.codecCheck_none_iff.mpr ⟨hsrc, hdst, apart⟩), h.codesIn,
    if_neg (Nat.not_lt.mpr hcount)]

/-- A count above the codes of the source comes after the range checks (R181, R183). -/
theorem exec_decode_of_overrun (h : s.WidthOk) (hsrc : s.mem.Holds src.toNat len.toNat)
    (hdst : s.mem.Holds dst.toNat count.toNat) (apart : Apart src.toNat len.toNat dst.toNat count.toNat)
    (hcount : len.toNat * (8 / s.width) < count.toNat) :
    exec (.decode src len dst count) s = .next (s.raise .countOverrun opcDecode) := by
  rw [exec_decode_of_none (Memory.codecCheck_none_iff.mpr ⟨hsrc, hdst, apart⟩), h.codesIn, if_pos hcount]

end outcomes

/-- Settles O42: each clause is the outcome of one check, or of DECODE's look at the count after them, and an error changes
ERRS alone. -/
theorem codecChecksComeInOrder : Obligations.CodecChecksComeInOrder := by
  intro s src len dst count h
  have hcodes := h.codesIn len
  refine ⟨?encodeBus, ?encodeOverlap, ?decodeBus, ?decodeOverlap, ?decodeCount, ?rawBus, ?rawOverlap⟩
  case encodeBus => exact fun outside => exec_encode_of_some (Memory.codecCheck_of_outside outside)
  case encodeOverlap => exact fun hsrc hdst meet => exec_encode_of_some (Memory.codecCheck_of_overlap hsrc hdst meet)
  case decodeBus => exact fun outside => exec_decode_of_some (Memory.codecCheck_of_outside outside)
  case decodeOverlap => exact fun hsrc hdst meet => exec_decode_of_some (Memory.codecCheck_of_overlap hsrc hdst meet)
  case decodeCount => exact exec_decode_of_overrun h
  case rawBus =>
    exact fun outside => exec_decodeRaw_of_some (hcodes ▸ Memory.codecCheck_of_outside outside)
  case rawOverlap =>
    exact fun hsrc hdst meet => exec_decodeRaw_of_some (hcodes ▸ Memory.codecCheck_of_overlap hsrc hdst meet)

/-! ### The streaming registers -/

/-- `s` with the streaming registers of `p` (R180). -/
def State.withStreaming (s p : State) : State := (s.setPacker p.pAcc p.pOff p.pPtr).setUnpacker p.uPtr p.uRem p.uOff

section withStreaming

variable (s p : State)

@[simp] theorem State.withStreaming_mem : (s.withStreaming p).mem = s.mem := rfl
@[simp] theorem State.withStreaming_packedBytes (L : Word) : (s.withStreaming p).packedBytes L = s.packedBytes L := rfl
@[simp] theorem State.withStreaming_codesIn (len : Word) : (s.withStreaming p).codesIn len = s.codesIn len := rfl

/-- The loop of ENCODE looks at the width and its row alone. -/
theorem State.SameWidth.encodeLoop {s t : State} (h : s.SameWidth t) (src k i : Nat) (r : PackRun) :
    t.encodeLoop src k i r = s.encodeLoop src k i r := by
  obtain ⟨hw, hdisp⟩ := h
  induction k generalizing i r with
  | zero => rfl
  | succ k ih =>
    have hwidth : t.width = s.width := congrArg BitVec.toNat hw
    have hpack (c : Byte) : t.packCode r c = s.packCode r c := by
      rw [State.packCode, State.packCode, State.maskCode, State.maskCode, hwidth, hdisp]
    rw [State.encodeLoop_succ, State.encodeLoop_succ, State.quantize, hdisp, hpack, ih]
    rfl

/-- So does all of ENCODE's work, beside the memory it begins with. -/
theorem State.SameWidth.encodeMem {s t : State} (h : s.SameWidth t) (hmem : t.mem = s.mem) (src dst L : Nat) :
    t.encodeMem src dst L = s.encodeMem src dst L := by
  rw [State.encodeMem, h.encodeLoop, hmem, State.encodeMem]

@[simp] theorem State.withStreaming_encodeMem (src dst L : Nat) :
    (s.withStreaming p).encodeMem src dst L = s.encodeMem src dst L :=
  State.SameWidth.encodeMem (s := s) (t := s.withStreaming p) ⟨rfl, rfl⟩ rfl src dst L

@[simp] theorem State.withStreaming_decodeLoop (src dst k j : Nat) (m : Memory) :
    (s.withStreaming p).decodeLoop src dst k j m = s.decodeLoop src dst k j m := by
  induction k generalizing j m with
  | zero => rfl
  | succ k ih => exact ih (j + 1) _

/-- Command `i` does at `s` with the streaming registers of `p` what it does at `s`, and leaves those of `p`. -/
def State.StreamingFree (i : Instr) : Prop :=
  nextState (exec i (s.withStreaming p)) = (nextState (exec i s)).map (·.withStreaming p)

theorem encode_streamingFree (src dst L : Word) : s.StreamingFree p (.encode src dst L) := by
  refine congrArg some ?_
  simp only [State.withStreaming_mem, State.withStreaming_packedBytes, State.withStreaming_encodeMem]
  split <;> rfl

theorem decode_streamingFree (src len dst count : Word) : s.StreamingFree p (.decode src len dst count) := by
  refine congrArg some ?_
  simp only [State.withStreaming_mem, State.withStreaming_codesIn, State.withStreaming_decodeLoop]
  split
  · rfl
  · split <;> rfl

theorem decodeRaw_streamingFree (src len dst : Word) : s.StreamingFree p (.decodeRaw src len dst) := by
  refine congrArg some ?_
  simp only [State.withStreaming_mem, State.withStreaming_codesIn, State.withStreaming_decodeLoop]
  split <;> rfl

theorem exec_streamingFree_of_isCodec {i : Instr} (h : i.isCodec = true) : s.StreamingFree p i := by
  cases i with
  | encode src dst L => exact encode_streamingFree s p src dst L
  | decode src len dst count => exact decode_streamingFree s p src len dst count
  | decodeRaw src len dst => exact decodeRaw_streamingFree s p src len dst
  | _ => cases h

end withStreaming

theorem exec_next_of_isCodec {i : Instr} (h : i.isCodec = true) (s : State) : ∃ t, exec i s = .next t := by
  cases i with
  | encode _ _ _ | decode _ _ _ _ | decodeRaw _ _ _ => exact ⟨_, rfl⟩
  | _ => cases h

/-- A codec command changes nothing but ERRS where it fails, and nothing but `M` where it does its work. -/
theorem State.Ends.of_isCodec {s t : State} {i : Instr} (h : s.Ends i t) (hcodec : i.isCodec = true) :
    ∃ r, t = { s with mem := t.mem, responses := s.responses ++ [r] } ∨
      t = { s with errs := t.errs, responses := s.responses ++ [r] } := by
  obtain ⟨e, rfl⟩ | ⟨u, v, heff, rfl⟩ := h
  · exact ⟨_, .inr rfl⟩
  · cases heff with
    | answerOnly | codec => exact ⟨_, .inl rfl⟩
    | _ => cases hcodec

/-- Settles O43: a codec command commutes with any values of the streaming registers, and its end is an error or the work
on `M`. -/
theorem codecLeavesTheStreamingStateAlone : Obligations.CodecLeavesTheStreamingStateAlone := by
  intro s i acc pOff uOff pPtr uPtr uRem hcodec
  obtain ⟨t, hexec⟩ := exec_next_of_isCodec hcodec s
  obtain ⟨r, hframe⟩ := (exec_ends hexec).of_isCodec hcodec
  exact ⟨exec_streamingFree_of_isCodec s
    { s with pAcc := acc, pOff := pOff, pPtr := pPtr, uPtr := uPtr, uRem := uRem, uOff := uOff } hcodec,
    t, r, hexec, hframe⟩

end Sys2Proof.Machine
end

section
/-! PROOF. What a successful codec command leaves (spec/44_codec.md R182 to R185): the response, the bytes of the output
one by one, and every other byte as it was. -/

namespace Sys2Proof.Machine

/-! ### ENCODE -/

section encode

variable {s : State} {src L : Nat} {d : Word}

/-- Above the last code the bytes that ENCODE leaves hold zeros (R185). -/
theorem State.Inv.encodeMem_padding (h : s.Inv) (fits : s.mem.Holds d.toNat (ceilDiv (L * s.width) 8))
    (apart : Apart src L d.toNat (ceilDiv (L * s.width) 8)) {j : Nat} (hj : L ≤ j)
    (hlast : j < ceilDiv (L * s.width) 8 * (8 / s.width)) :
    (s.encodeMem src d.toNat L).bufferCode s.width d.toNat j = 0 := by
  obtain ⟨u, -, hout, hmem⟩ := h.encodeMem_session fits apart
  have hbyte := div_codesPerByte_lt hlast
  have hcode := hout.code hbyte
  have hpast : (s.quantized src L).length ≤ j := by rw [State.quantized_length]; exact hj
  rwa [fits.add_mod h.mem_wf hbyte, packedValue_digit_above _ _ hpast, hmem] at hcode

/-- ENCODE writes no byte outside its output (R185). -/
theorem State.Inv.encodeMem_frame (h : s.Inv) (fits : s.mem.Holds d.toNat (ceilDiv (L * s.width) 8))
    (apart : Apart src L d.toNat (ceilDiv (L * s.width) 8)) {a : Nat}
    (ha : a < d.toNat ∨ d.toNat + ceilDiv (L * s.width) 8 ≤ a) :
    (s.encodeMem src d.toNat L).read a = s.mem.read a := by
  obtain ⟨u, -, hout, hmem⟩ := h.encodeMem_session fits apart
  rw [← hmem]
  refine hout.mem.frame a fun k hk => ?_
  rw [fits.add_mod h.mem_wf hk]
  omega

end encode

/-- Settles O39: the packer's output holds the quantized samples' codes, zeros above them, and nothing else is written. -/
theorem encodePacksTheQuantizedSamples : Obligations.EncodePacksTheQuantizedSamples := by
  intro s src dst L h hsrc hdst apart
  exact ⟨s.encodeMem src.toNat dst.toNat L.toNat, exec_encode_of_apart hsrc hdst apart, s.encodeMem_size _ _ _,
    fun j hj => h.encodeMem_code hdst apart hj, fun j hj hlast => h.encodeMem_padding hdst apart hj hlast,
    fun a ha => h.encodeMem_frame hdst apart ha⟩

/-! ### DECODE and DECODE_RAW -/

/-- Settles O40: the loop leaves each code times SCALE at its place, and no other byte is written. -/
theorem decodeWritesTheReconstructedSamples : Obligations.DecodeWritesTheReconstructedSamples := by
  intro s src len dst count h hsrc hdst apart hcount
  exact ⟨s.decodeLoop src.toNat dst.toNat count.toNat 0 s.mem, exec_decode_of_apart h.widthOk hsrc hdst apart hcount,
    s.decodeLoop_size _ _ _ _ _, fun j hj => h.decodeLoop_sample hdst apart hcount hj,
    fun a ha => s.decodeLoop_frame _ _ _ 0 h.mem_wf ha⟩

/-- Settles O41: the loop runs over all the codes of the buffer, whose number fits the answer. -/
theorem decodeRawWritesEverySample : Obligations.DecodeRawWritesEverySample := by
  intro s src len dst h hsrc hdst apart
  have hcodes : s.codesIn len = len.toNat * (8 / s.width) := h.widthOk.codesIn len
  have hexec := exec_decodeRaw_of_none (Memory.codecCheck_none_iff.mpr ⟨hsrc, hcodes ▸ hdst, hcodes ▸ apart⟩)
  rw [hcodes] at hexec
  exact ⟨s.decodeLoop src.toNat dst.toNat (len.toNat * (8 / s.width)) 0 s.mem, _, hexec,
    h.codes_toNat hsrc hdst apart, s.decodeLoop_size _ _ _ _ _,
    fun j hj => h.decodeLoop_sample hdst apart (Nat.le_refl _) hj,
    fun a ha => s.decodeLoop_frame _ _ _ 0 h.mem_wf ha⟩

end Sys2Proof.Machine
end

section
/-! PROOF. The codec beside itself and beside the streaming units (spec/44_codec.md R186 to R188). What ENCODE packs is the
buffer that DECODE reads; each of the two does at once what a streaming session does code by code; and where a first part
ends at a whole byte ENCODE's packer is empty there, so the rest is an ENCODE of its own. -/

namespace Sys2Proof.Machine

/-! ### After a codec command -/

/-- `t` is where a codec command that succeeds takes `s`, leaving the memory `m`: what a command after it rests on. -/
structure State.CodecDone (s : State) (m : Memory) (t : State) : Prop where
  inv : t.Inv
  sameWidth : s.SameWidth t
  answered : s.AnsweredOk t
  mem : t.mem = m

theorem State.CodecDone.width {s t : State} {m : Memory} (h : s.CodecDone m t) : t.width = s.width :=
  congrArg BitVec.toNat h.sameWidth.1

/-- A new memory and a response of code 0 are all that success changes. -/
theorem codecDone_of_exec {s : State} (h : s.Inv) {m : Memory} {i : Instr} {opc : Byte} {v : Word}
    (hexec : exec i s = .next ((s.setMem m).respond opc v)) : s.CodecDone m ((s.setMem m).respond opc v) :=
  ⟨State.Inv.exec h hexec, ⟨rfl, rfl⟩, (s.answeredOk_setMem m).respond opc v, rfl⟩

section done

variable {s : State} {src len dst count L : Word}

theorem exec_encode_done (h : s.Inv) {n : Nat} (hL : L.toNat = n) (hsrc : s.mem.Holds src.toNat n)
    (hdst : s.mem.Holds dst.toNat (ceilDiv (n * s.width) 8))
    (apart : Apart src.toNat n dst.toNat (ceilDiv (n * s.width) 8)) :
    ∃ t, exec (.encode src dst L) s = .next t ∧ s.CodecDone (s.encodeMem src.toNat dst.toNat n) t := by
  subst hL
  have hexec := exec_encode_of_apart hsrc hdst apart
  exact ⟨_, hexec, codecDone_of_exec h hexec⟩

theorem exec_decode_done (h : s.Inv) {n : Nat} (hlen : len.toNat = n) (hsrc : s.mem.Holds src.toNat n)
    (hdst : s.mem.Holds dst.toNat count.toNat) (apart : Apart src.toNat n dst.toNat count.toNat)
    (hcount : count.toNat ≤ n * (8 / s.width)) :
    ∃ t, exec (.decode src len dst count) s = .next t ∧
      s.CodecDone (s.decodeLoop src.toNat dst.toNat count.toNat 0 s.mem) t := by
  subst hlen
  have hexec := exec_decode_of_apart h.widthOk hsrc hdst apart hcount
  exact ⟨_, hexec, codecDone_of_exec h hexec⟩

end done

/-! ### ENCODE, then DECODE -/

/-- The bytes that `L` codes need hold `L` codes (R182, R183). -/
theorem le_ceilDiv_codes {n : Nat} (hn : legalWidth n = true) (L : Nat) : L ≤ ceilDiv (L * n) 8 * (8 / n) := by
  unfold ceilDiv
  obtain rfl | rfl | rfl | rfl := legalWidth_iff.mp hn <;> omega

/-- No code is wider than a byte, so the number of packed bytes fits a word. -/
theorem ceilDiv_toNat {n : Nat} (hn : legalWidth n = true) (L : Word) :
    (BitVec.ofNat 32 (ceilDiv (L.toNat * n) 8)).toNat = ceilDiv (L.toNat * n) 8 := by
  have hbits : L.toNat * n ≤ L.toNat * 8 := Nat.mul_le_mul_left _ (legalWidth_bounds hn).2
  have hword := L.isLt
  rw [BitVec.toNat_ofNat]
  unfold ceilDiv
  omega

/-- Settles O44: DECODE reads back the codes that ENCODE packed, the top N bits of the samples, and multiplies them by
SCALE; at width 8 that is the sample. -/
theorem encodeThenDecodeReconstructs : Obligations.EncodeThenDecodeReconstructs := by
  intro s src d dst L h hsrc hd hdst encApart decApart
  obtain ⟨t, henc, ht⟩ := exec_encode_done h rfl hsrc hd encApart
  have hsize : t.mem.size = s.mem.size := by rw [ht.mem, State.encodeMem_size]
  have hd' : t.mem.Holds d.toNat (ceilDiv (L.toNat * s.width) 8) := by rw [Memory.Holds, hsize]; exact hd
  have hdst' : t.mem.Holds dst.toNat L.toNat := by rw [Memory.Holds, hsize]; exact hdst
  have hcount : L.toNat ≤ ceilDiv (L.toNat * s.width) 8 * (8 / t.width) := by
    rw [ht.width]; exact le_ceilDiv_codes h.width L.toNat
  obtain ⟨u, hdec, hu⟩ := exec_decode_done ht.inv (ceilDiv_toNat h.width L) hd' hdst' decApart hcount
  have hsample (i : Nat) (hi : i < L.toNat) : (u.mem.read (dst.toNat + i)).toNat =
      (s.mem.read (src.toNat + i)).toNat / 2 ^ (8 - s.width) * (255 / (2 ^ s.width - 1)) := by
    rw [hu.mem, ht.inv.decodeLoop_sample hdst' decApart hcount hi, ht.width, ht.mem,
      h.encodeMem_code hd encApart hi]
  refine ⟨t, u, henc, hdec, (ht.answered.trans hu.answered).code_of_mem_drop, hsample, fun hw i hi => ?_⟩
  have hwidth : s.width = 8 := congrArg BitVec.toNat hw
  apply BitVec.eq_of_toNat_eq
  rw [hsample i hi, hwidth, Nat.sub_self, Nat.pow_zero, Nat.div_one]
  exact Nat.mul_one _

/-! ### The codec beside a streaming session -/

/-- The packing session's codes, in the words of R160. -/
theorem State.WidthOk.map_pack_quantized {s : State} (h : s.WidthOk) (src L : Nat) :
    (s.quantized src L).map Instr.pack = (List.range L).map fun i =>
      Instr.pack (BitVec.ofNat 8 ((s.mem.read (src + i)).toNat / 2 ^ (8 - s.width))) := by
  simp only [State.quantized, List.map_map, ← h.quantize_toNat, BitVec.ofNat_toNat, BitVec.setWidth_eq]
  rfl

/-- Settles O46: the packing session over the quantized samples leaves ENCODE's memory. -/
theorem encodeAgreesWithThePackingSession : Obligations.EncodeAgreesWithThePackingSession := by
  intro s src dst L h hsrc hdst apart
  obtain ⟨t, hexec, ht⟩ := exec_encode_done h rfl hsrc hdst apart
  obtain ⟨u, hrun, -, hmem⟩ := h.encodeMem_session hdst apart
  rw [h.widthOk.map_pack_quantized] at hrun
  exact ⟨t, u, hexec, hrun, hmem.trans ht.mem.symm⟩

/-- A code is a byte (R10, R20). -/
theorem maxCode_le {n : Nat} (hn : legalWidth n = true) : 2 ^ n - 1 ≤ 255 := by
  obtain rfl | rfl | rfl | rfl := legalWidth_iff.mp hn <;> decide

/-- Settles O47: the k-th UNPACK answers code k of the source, QINV of it is its product with SCALE, and that product is
sample k. -/
theorem decodeAgreesWithTheUnpackingSession : Obligations.DecodeAgreesWithTheUnpackingSession := by
  intro s src len dst count h hsrc hdst apart hcount
  obtain ⟨t, hexec, ht⟩ := exec_decode_done h rfl hsrc hdst apart hcount
  refine ⟨t, hexec, fun k hk => ?_⟩
  have hk' : k < len.toNat * (8 / s.width) := Nat.lt_of_lt_of_le hk hcount
  obtain ⟨u, hrun, hu⟩ := h.runCommands_unpack hsrc hk'.le
  have hcode := s.mem.bufferCode_le s.width src.toNat k
  have hvalue := code_mul_scale_le h.width hcode
  have hunpack := hu.answer_unpack hk'
  rw [hsrc.add_mod h.mem_wf (div_codesPerByte_lt hk')] at hunpack
  have hback : ((BitVec.ofNat 32 (s.mem.bufferCode s.width src.toNat k)).setWidth 8).toNat =
      s.mem.bufferCode s.width src.toNat k :=
    toNat_setWidth_ofNat (hcode.trans (maxCode_le h.width))
  have hqinv := hu.inv.widthOk.answer_qinv (hback.trans_le (hu.width.symm ▸ hcode))
  rw [hback, hu.width] at hqinv
  refine ⟨u, _, _, hrun, hunpack, hqinv, BitVec.eq_of_toNat_eq ?_⟩
  rw [ht.mem, h.decodeLoop_sample hdst apart hcount hk, toNat_setWidth_ofNat hvalue]

/-! ### ENCODE in two parts -/

/-- The loop of ENCODE in two runs. -/
theorem State.encodeLoop_add (s : State) (src k l i : Nat) (r : PackRun) :
    s.encodeLoop src (k + l) i r = s.encodeLoop src l (i + k) (s.encodeLoop src k i r) := by
  induction k generalizing i r with
  | zero => rw [Nat.zero_add]; rfl
  | succ k ih => rw [Nat.succ_add, State.encodeLoop_succ, State.encodeLoop_succ, ih, Nat.add_right_comm, Nat.add_assoc]

/-- The samples from sample `l` on are the samples of a source that begins there. -/
theorem State.encodeLoop_shift (s : State) (src l k i : Nat) (r : PackRun) :
    s.encodeLoop (src + l) k i r = s.encodeLoop src k (l + i) r := by
  induction k generalizing i r with
  | zero => rfl
  | succ k ih => rw [State.encodeLoop_succ, State.encodeLoop_succ, ih, Nat.add_assoc src, Nat.add_assoc l]

/-- A packer between two bytes holds no bits (R25, R182). -/
def PackRun.EmptyAtZero (r : PackRun) : Prop := r.off = 0 → r.acc = 0

theorem State.packCode_emptyAtZero (s : State) (hpos : 0 < s.width) (r : PackRun) (c : Byte) :
    (s.packCode r c).EmptyAtZero := by
  obtain ⟨-, hpacked⟩ | ⟨-, hpacked⟩ := s.packCode_spec r c
  · rw [hpacked]
    exact fun _ => rfl
  · rw [hpacked]
    exact fun hoff => absurd hoff (Nat.ne_of_gt (Nat.add_pos_right _ hpos))

theorem State.encodeLoop_emptyAtZero (s : State) (hpos : 0 < s.width) (src k i : Nat) {r : PackRun}
    (h : r.EmptyAtZero) : (s.encodeLoop src k i r).EmptyAtZero := by
  induction k generalizing i r with
  | zero => exact h
  | succ k ih => exact ih (i + 1) (s.packCode_emptyAtZero hpos r _)

theorem PackRun.commit_of_empty {r : PackRun} (h : r.off = 0) : r.commit = r.mem :=
  if_neg (Nat.not_lt.mpr h.le)

/-- After a whole number of bytes ENCODE's packer is a fresh one, past the bytes of a whole ENCODE of the samples so far. -/
theorem State.encodeLoop_of_whole (s : State) (hw : legalWidth s.width = true) {src dst L : Nat}
    (whole : L * s.width % 8 = 0) :
    s.encodeLoop src L 0 ⟨0, 0, dst, s.mem⟩ = ⟨0, 0, dst + L * s.width / 8, s.encodeMem src dst L⟩ := by
  obtain ⟨hptr, hoff⟩ := s.encodeLoop_position hw src L 0 (r := ⟨0, 0, dst, s.mem⟩) (Nat.zero_mod _) (Nat.zero_lt_succ 7)
  have hacc := s.encodeLoop_emptyAtZero (legalWidth_bounds hw).1 src L 0 (r := ⟨0, 0, dst, s.mem⟩) fun _ => rfl
  rw [Nat.zero_add] at hptr hoff
  rw [State.encodeMem, PackRun.commit_of_empty (hoff.trans whole)]
  generalize s.encodeLoop src L 0 ⟨0, 0, dst, s.mem⟩ = r at hptr hoff hacc
  obtain ⟨acc, off, ptr, mem⟩ := r
  obtain rfl : off = 0 := hoff.trans whole
  obtain rfl : acc = 0 := hacc rfl
  obtain rfl : ptr = dst + L * s.width / 8 := hptr
  rfl

/-- After an ENCODE of a whole number of bytes, an ENCODE of the samples that follow, to the bytes that follow, completes
the ENCODE of all (R188). Where no sample follows, it may be given any addresses. -/
theorem State.CodecDone.encodeMem_rest {s t : State} {src dst L src' dst' L' : Nat}
    (h : s.CodecDone (s.encodeMem src dst L) t) (hw : legalWidth s.width = true) (whole : L * s.width % 8 = 0)
    (hsrc : L' = 0 ∨ src' = src + L) (hdst : L' = 0 ∨ dst' = dst + L * s.width / 8) :
    t.encodeMem src' dst' L' = s.encodeMem src dst (L + L') := by
  by_cases hempty : L' = 0
  · subst hempty
    exact h.mem
  · obtain rfl := hsrc.resolve_left hempty
    obtain rfl := hdst.resolve_left hempty
    calc t.encodeMem (src + L) (dst + L * s.width / 8) L'
        = (t.encodeLoop (src + L) L' 0 ⟨0, 0, dst + L * s.width / 8, t.mem⟩).commit := rfl
      _ = (s.encodeLoop src L' (0 + L) (s.encodeLoop src L 0 ⟨0, 0, dst, s.mem⟩)).commit := by
        rw [h.sameWidth.encodeLoop, h.mem, s.encodeLoop_shift, s.encodeLoop_of_whole hw whole, Nat.zero_add,
          Nat.add_zero]
      _ = s.encodeMem src dst (L + L') := by rw [← s.encodeLoop_add]; rfl

/-- A range of `M` in two parts: the second begins where the addresses say, unless it is empty (R50, R55). -/
theorem Memory.Holds.parts {m : Memory} {a x : Word} {n : Nat} (h : m.Holds a.toNat (x.toNat + n))
    (hwf : m.wf = true) :
    m.Holds a.toNat x.toNat ∧ m.Holds (a + x).toNat n ∧ (n = 0 ∨ (a + x).toNat = a.toNat + x.toNat) := by
  obtain ⟨-, hsize, -⟩ := Memory.wf_iff.mp hwf
  have hnext : n = 0 ∨ (a + x).toNat = a.toNat + x.toNat := by rw [BitVec.toNat_add]; omega
  exact ⟨by omega, by omega, hnext⟩

/-- Of two ranges that are apart, the first parts are apart, and so are the second parts (R56). -/
theorem Apart.parts {a n n' b k k' a' b' : Nat} (h : Apart a (n + n') b (k + k')) (ha : n' = 0 ∨ a' = a + n)
    (hb : k' = 0 ∨ b' = b + k) : Apart a n b k ∧ Apart a' n' b' k' := by
  unfold Apart at *
  omega

/-- Only an empty part packs to no byte. -/
theorem eq_zero_of_ceilDiv {n L : Nat} (hn : 0 < n) (h : ceilDiv (L * n) 8 = 0) : L = 0 := by
  have hbits : L * n = 0 := by unfold ceilDiv at h; omega
  exact (Nat.mul_eq_zero.mp hbits).resolve_right (Nat.ne_of_gt hn)

/-- The packed bytes of a first part that is a whole number of bytes, and of both parts (R188). -/
theorem ceilDiv_of_whole {n L : Nat} (whole : L * n % 8 = 0) (L' : Nat) :
    ceilDiv (L * n) 8 = L * n / 8 ∧ ceilDiv ((L + L') * n) 8 = L * n / 8 + ceilDiv (L' * n) 8 := by
  rw [Nat.add_mul]
  unfold ceilDiv
  omega

/-- Settles O48: the ranges of the whole are those of the two parts, and the second ENCODE finds the width, the samples and
the address at which the first part of one ENCODE leaves its packer. -/
theorem encodeSplitsAtWholeBytes : Obligations.EncodeSplitsAtWholeBytes := by
  intro s src dst L1 L2 h hL1 hmax hsrc hdst apart
  obtain ⟨hbyte, hbit⟩ := codePlace_div_mod h.width L1.toNat
  have whole : L1.toNat * s.width % 8 = 0 := hbit.symm.trans ((congrArg (· * s.width) hL1).trans (Nat.zero_mul _))
  have hsum : (L1 + L2).toNat = L1.toNat + L2.toNat := (BitVec.toNat_add ..).trans (Nat.mod_eq_of_lt hmax)
  have hlen : (BitVec.ofNat 32 (L1.toNat / (8 / s.width))).toNat = L1.toNat * s.width / 8 := by
    rw [BitVec.toNat_ofNat, ← hbyte]
    exact Nat.mod_eq_of_lt ((Nat.div_le_self _ _).trans_lt L1.isLt)
  obtain ⟨hfirst, hboth⟩ := ceilDiv_of_whole whole L2.toNat
  rw [← hlen] at hfirst hboth
  obtain ⟨hsrc1, hsrc2, hsrcNext⟩ := hsrc.parts h.mem_wf
  obtain ⟨hdst1, hdst2, hdstNext⟩ := (hboth ▸ hdst : s.mem.Holds dst.toNat _).parts h.mem_wf
  obtain ⟨apart1, apart2⟩ := (hboth ▸ apart : Apart src.toNat _ dst.toNat _).parts hsrcNext hdstNext
  rw [← hfirst] at hdst1 apart1
  obtain ⟨t, ht, hwholeDone⟩ := exec_encode_done h hsum hsrc hdst apart
  obtain ⟨u, hu, hfirstDone⟩ := exec_encode_done h rfl hsrc1 hdst1 apart1
  have hsize : u.mem.size = s.mem.size := by rw [hfirstDone.mem, State.encodeMem_size]
  have hbytes : ceilDiv (L2.toNat * u.width) 8 = ceilDiv (L2.toNat * s.width) 8 := by rw [hfirstDone.width]
  rw [← hbytes] at hdst2 apart2
  rw [Memory.Holds, ← hsize] at hsrc2 hdst2
  obtain ⟨v, hv, hrestDone⟩ := exec_encode_done hfirstDone.inv rfl hsrc2 hdst2 apart2
  have hempty := eq_zero_of_ceilDiv (L := L2.toNat) (legalWidth_bounds h.width).1
  refine ⟨t, u, v, ht, hu, hv, ?_⟩
  rw [hrestDone.mem, hwholeDone.mem]
  exact hfirstDone.encodeMem_rest h.width whole hsrcNext (hlen ▸ hdstNext.imp_left hempty)

end Sys2Proof.Machine
end

section
/-! PROOF. How a command ends (spec/60_exceptions.md R200, R203, R206, R214): with one response, which holds its opcode and
either code 0 or the code of an error listed for it. The two ways of ending give the response and the frame; which errors a
command can raise is read off its checks. -/

namespace Sys2Proof.Machine

/-! ### The fields of a response and the error codes -/

/-- OPC is the second field of the RESP word (R82). -/
theorem opc_respWord (c : BitVec 4) (opc : Byte) (v : Word) : Response.opc ⟨respWord c opc, v⟩ = opc := by
  have hcode : (c.setWidth 32).extractLsb' 8 8 = 0#8 := by
    simpa using extractLsb'_placed_of_apart (k := 0) (i := 8) (m := 8) c (.inr (by decide))
  rw [Response.opc, respWord, BitVec.extractLsb'_or, hcode, extractLsb'_placed opc (by decide), BitVec.zero_or]

/-- No error has the code of success (R200). -/
theorem ErrCode.code_ne_zero (e : ErrCode) : e.code ≠ 0 := by cases e <;> decide

theorem ErrCode.code_lt (e : ErrCode) : e.code.toNat < 8 := by cases e <;> decide

/-! ### One response, and only the error's bit -/

/-- The work of a command takes nothing from the port and sends nothing: the answer comes after it (R9). -/
theorem State.Effect.ports {s u : State} {i : Instr} (h : s.Effect i u) :
    u.input = s.input ∧ u.responses = s.responses := by
  cases h with
  | unpack left => exact s.advanceUnpacker_ports
  | answerOnly | setw _ | clrerr | pbind _ | packPartial _ | packFull _ _ | pcommit _ _ | ubind _ | codec _ _ _ =>
    exact ⟨rfl, rfl⟩

/-- The work of every command but CLRERR keeps the sticky bits (R31). -/
theorem State.Effect.errs {s u : State} {i : Instr} (h : s.Effect i u) (hclr : i ≠ .clrerr) : u.errs = s.errs := by
  cases h with
  | clrerr => exact absurd rfl hclr
  | unpack left =>
    obtain ⟨-, hnext⟩ | ⟨-, hwithin⟩ := s.advanceUnpacker_spec
    · rw [hnext]
    · rw [hwithin]
  | answerOnly | setw _ | pbind _ | packPartial _ | packFull _ _ | pcommit _ _ | ubind _ | codec _ _ _ => rfl

/-- CLRERR leaves no sticky bit set (R102). -/
theorem exec_clrerr_errs {s t : State} (h : exec .clrerr s = .next t) : t.errs = 0 := by
  cases h; rfl

/-- A command that succeeds keeps the sticky bits, unless it is CLRERR (R31, R102). -/
theorem exec_errs_of_effect {s u : State} {i : Instr} {v : Word} (hexec : exec i s = .next (u.respond i.opcode v))
    (heff : s.Effect i u) : (u.respond i.opcode v).errs = if i = .clrerr then 0 else s.errs := by
  split
  · next hclr => subst hclr; exact exec_clrerr_errs hexec
  · next hclr => exact heff.errs hclr

/-- Settles O49: an error is entered as R203 says, and the answer of a success has code 0. -/
theorem errorChangesOnlyItsBit : Obligations.ErrorChangesOnlyItsBit := by
  intro s t i hexec
  obtain ⟨e, rfl⟩ | ⟨u, v, heff, rfl⟩ := exec_ends hexec
  · have hcode := code_respWord e.code i.opcode 0
    refine ⟨⟨respWord e.code i.opcode, 0⟩, rfl, opc_respWord _ _ _, fun _ => ⟨rfl, ?_⟩,
      fun hok => absurd (hcode.symm.trans hok) e.code_ne_zero⟩
    rw [hcode]
    exact s.raise_spec e i.opcode
  · exact ⟨⟨respWord 0 i.opcode, v⟩, congrArg (· ++ _) heff.ports.2, opc_respWord _ _ _,
      fun herr => absurd (code_respWord 0 i.opcode v) herr, fun _ => exec_errs_of_effect hexec heff⟩

/-! ### Every command answers -/

/-- Under the invariants every command leaves a next state: UNPACK alone could fault, and its byte, where one is left, lies
in `M` (R140, R141). -/
theorem exec_next_of_inv {s : State} (h : s.Inv) (i : Instr) : ∃ t, exec i s = .next t := by
  cases i with
  | unpack =>
    by_cases finished : s.uRem = 0
    · exact ⟨_, exec_unpack_of_finished finished⟩
    · exact ⟨_, exec_unpack_of_left h finished⟩
  | _ => exact ⟨_, rfl⟩

/-- Settles O51: there is a next state, and either way of ending sends one response and leaves the port. -/
theorem everyCommandFinishesWithAResponse : Obligations.EveryCommandFinishesWithAResponse := by
  intro s i h
  obtain ⟨t, hexec⟩ := exec_next_of_inv h i
  obtain ⟨e, rfl⟩ | ⟨u, v, heff, rfl⟩ := exec_ends hexec
  · exact ⟨_, _, hexec, rfl, rfl⟩
  · obtain ⟨hinput, hresponses⟩ := heff.ports
    exact ⟨_, _, hexec, congrArg (· ++ _) hresponses, hinput⟩

/-! ### The errors listed for a command -/

/-- From `s` to `t` one response is sent, and it is a success or reports an error listed for command `i` (R206). -/
def State.AnswersAsListed (s : State) (i : Instr) (t : State) : Prop :=
  ∃ r : Response, t.responses = s.responses ++ [r] ∧ (r.code = 0 ∨ ∃ e : ErrCode, r.code = e.code ∧ e.code ∈ i.mayRaise)

theorem State.raise_asListed {s : State} {i : Instr} {e : ErrCode} {opc : Byte} (listed : e.code ∈ i.mayRaise) :
    s.AnswersAsListed i (s.raise e opc) := ⟨_, rfl, .inr ⟨e, code_respWord _ _ _, listed⟩⟩

theorem State.respond_asListed {s u : State} {i : Instr} {opc : Byte} {v : Word} (h : u.responses = s.responses) :
    s.AnswersAsListed i (u.respond opc v) := ⟨_, congrArg (· ++ _) h, .inl (code_respWord _ _ _)⟩

/-- A check answers as listed where both its outcomes do. -/
theorem State.ite_asListed {s a b : State} {i : Instr} {c : Prop} [Decidable c] (ha : s.AnswersAsListed i a)
    (hb : s.AnswersAsListed i b) : s.AnswersAsListed i (if c then a else b) := by
  split
  · exact ha
  · exact hb

/-- Appending a byte raises BusError or nothing (R121, R122). -/
theorem State.emitByte_asListed {s : State} {i : Instr} {b opc : Byte} (listed : ErrCode.busError.code ∈ i.mayRaise) :
    s.AnswersAsListed i (s.emitByte b opc) := ite_asListed (respond_asListed rfl) (raise_asListed listed)

/-- The checks of R181 raise BusError or Overlap, which are listed for every codec command. -/
theorem Memory.codecCheck_listed {m : Memory} {src n dst k : Nat} {e : ErrCode} {i : Instr}
    (hcheck : m.codecCheck src n dst k = some e) (hcodec : i.isCodec = true) : e.code ∈ i.mayRaise := by
  have herror : e = .busError ∨ e = .overlap := by
    obtain ⟨hbus, -⟩ | ⟨hoverlap, -⟩ | ⟨hnone, -⟩ := m.codecCheck_spec src n dst k
    · exact .inl (Option.some.inj (hcheck.symm.trans hbus))
    · exact .inr (Option.some.inj (hcheck.symm.trans hoverlap))
    · cases hcheck.symm.trans hnone
  cases i with
  | encode _ _ _ | decode _ _ _ _ | decodeRaw _ _ _ => obtain rfl | rfl := herror <;> simp [Instr.mayRaise, ErrCode.code]
  | _ => cases hcodec

section commands

variable {s t : State}

theorem execUnpack_asListed (h : execUnpack s = .next t) : s.AnswersAsListed .unpack t := by
  unfold execUnpack at h
  split at h
  · cases h; exact State.raise_asListed (List.mem_singleton_self _)
  · split at h
    · cases h; exact State.respond_asListed s.advanceUnpacker_ports.2
    · cases h

theorem execEncode_asListed {src dst L : Word} (h : execEncode src dst L s = .next t) :
    s.AnswersAsListed (.encode src dst L) t := by
  cases h
  split
  · next hcheck => exact State.raise_asListed (Memory.codecCheck_listed hcheck rfl)
  · exact State.respond_asListed rfl

/-- After the range checks DECODE may raise CountOverrun too (R183). -/
theorem execDecode_asListed {src len dst count : Word} (h : execDecode src len dst count s = .next t) :
    s.AnswersAsListed (.decode src len dst count) t := by
  cases h
  split
  · next hcheck => exact State.raise_asListed (Memory.codecCheck_listed hcheck rfl)
  · exact State.ite_asListed (State.raise_asListed (by simp [Instr.mayRaise, ErrCode.code])) (State.respond_asListed rfl)

theorem execDecodeRaw_asListed {src len dst : Word} (h : execDecodeRaw src len dst s = .next t) :
    s.AnswersAsListed (.decodeRaw src len dst) t := by
  cases h
  split
  · next hcheck => exact State.raise_asListed (Memory.codecCheck_listed hcheck rfl)
  · exact State.respond_asListed rfl

/-- Every command that answers does so with success or an error listed for it. The commands of the first case make no
check, and each of the next five has one error listed. -/
theorem exec_asListed {i : Instr} (h : exec i s = .next t) : s.AnswersAsListed i t := by
  have only (c : BitVec 4) : c ∈ [c] := List.mem_singleton_self c
  cases i with
  | nop | clrerr | stat | rdpp | rdup | rdur | qfwd _ | pbind _ | ufin => cases h; exact State.respond_asListed rfl
  | setw imm => cases h; exact State.ite_asListed (State.respond_asListed rfl) (State.raise_asListed (only _))
  | qinv imm => cases h; exact State.ite_asListed (State.raise_asListed (only _)) (State.respond_asListed rfl)
  | ubind src len => cases h; exact State.ite_asListed (State.respond_asListed rfl) (State.raise_asListed (only _))
  | pack imm => cases h; exact State.ite_asListed (State.emitByte_asListed (only _)) (State.respond_asListed rfl)
  | pcommit => cases h; exact State.ite_asListed (State.emitByte_asListed (only _)) (State.respond_asListed rfl)
  | unpack => exact execUnpack_asListed h
  | encode src dst L => exact execEncode_asListed h
  | decode src len dst count => exact execDecode_asListed h
  | decodeRaw src len dst => exact execDecodeRaw_asListed h

end commands

/-- Settles O50: a listed error is one of R200's, whose codes end at 7. -/
theorem commandsRaiseOnlyTheirErrors : Obligations.CommandsRaiseOnlyTheirErrors := by
  intro s t i hexec
  obtain ⟨r, hsent, hok | ⟨e, hcode, listed⟩⟩ := exec_asListed hexec
  · exact ⟨r, hsent, .inl hok, by rw [hok]; decide⟩
  · exact ⟨r, hsent, .inr (hcode ▸ listed), hcode ▸ e.code_lt⟩

end Sys2Proof.Machine
end

section
/-! PROOF. The values at power-on and after a later reset (spec/70_reset_and_hazards.md R220). Both leave every register
that the status word shows at one value, so the status word is proved once for the two. -/

namespace Sys2Proof.Machine

/-- The registers at their reset values show W = 8 and FIN = 1 in the status word, and zeros elsewhere (R30, R220). -/
theorem State.statusWord_of_fresh {s : State} (hw : s.w = 8#4) (hacc : s.pAcc = 0) (hoff : s.pOff = 0)
    (hrem : s.uRem = 0) (huoff : s.uOff = 0) (herrs : s.errs = 0) : s.statusWord = 0x00001008#32 := by
  have hfin : s.fin = 1 := if_pos hrem
  rw [State.statusWord, hw, hoff, huoff, hfin, hacc, herrs]
  decide

/-- Settles O1. Power-on writes the table's values out and lists MEM_INIT; a later reset takes the row of DISP from the
formulas for width 8 and does not touch `M`. -/
theorem resetGivesTheStatedValues : Obligations.ResetGivesTheStatedValues := by
  refine ⟨⟨rfl, rfl, rfl, rfl, rfl, rfl, rfl, rfl, rfl, ?memInit, ?status⟩, fun s rest hin => ?later⟩
  case memInit => exact fun a ha => Memory.initial_read Config.memInit ha
  case status => exact State.statusWord_of_fresh rfl rfl rfl rfl rfl rfl
  case later =>
    exact ⟨_, step_reset hin, rfl, dispatch_eight, rfl, rfl, rfl, rfl, rfl, rfl, rfl, rfl,
      State.statusWord_of_fresh rfl rfl rfl rfl rfl rfl⟩

end Sys2Proof.Machine
end

section
/-! PROOF. Words over a byte-wide link (spec/92_eei_decisions.md D30). Each bit of a word lies in exactly one of its four
bytes, so the bytes of a word, put back at their places, make up the word. -/

namespace Sys2Proof

/-- The eight bits from bit `k` up are the byte that division by 2^k leaves. -/
theorem extractLsb'_eight (w : Word) (k : Nat) : w.extractLsb' k 8 = BitVec.ofNat 8 (w.toNat / 2 ^ k) := by
  rw [BitVec.extractLsb', Nat.shiftRight_eq_div_pow]

/-- A byte of a word, put back at its place, has the word's bits there and zeros elsewhere. -/
theorem getElem_byte_inPlace (w : Word) (k : Nat) {i : Nat} (hi : i < 32) :
    ((w.extractLsb' k 8).setWidth 32 <<< k)[i] = (decide (k ≤ i ∧ i < k + 8) && w[i]) := by
  by_cases hk : k ≤ i
  · have hplace : k + (i - k) = i := Nat.add_sub_of_le hk
    have hbyte : i - k < 8 ↔ i < k + 8 := by omega
    simp [hk, Nat.not_lt.mpr hk, hplace, hbyte, BitVec.getLsbD_eq_getElem hi]
  · simp [hk, Nat.lt_of_not_le hk]

/-- The four bytes of a word, each at its place, make up the word. -/
theorem join_bytes (w : Word) :
    (w.extractLsb' 0 8).setWidth 32 ||| ((w.extractLsb' 8 8).setWidth 32 <<< 8) |||
      ((w.extractLsb' 16 8).setWidth 32 <<< 16) ||| ((w.extractLsb' 24 8).setWidth 32 <<< 24) = w := by
  ext i hi
  have hlow := getElem_byte_inPlace w 0 hi
  rw [BitVec.shiftLeft_zero] at hlow
  have hplace : ((0 ≤ i ∧ i < 0 + 8 ∨ 8 ≤ i ∧ i < 8 + 8) ∨ 16 ≤ i ∧ i < 16 + 8) ∨ 24 ≤ i ∧ i < 24 + 8 := by omega
  simp only [BitVec.getElem_or, hlow, getElem_byte_inPlace, ← Bool.and_or_distrib_right, ← Bool.decide_or, hplace,
    decide_true, Bool.true_and]

/-- The first four bytes of a link carry a word, and the rest of the words come from the bytes after it. -/
theorem wordsOfLink_linkBytes_append (w : Word) (bs : List Byte) :
    wordsOfLink (linkBytes w ++ bs) = w :: wordsOfLink bs :=
  congrArg (· :: wordsOfLink bs) (join_bytes w)

/-- Settles O16, by induction on the words sent. -/
theorem linkBytesCarryTheWords : Obligations.LinkBytesCarryTheWords := by
  refine ⟨fun w => ?bytes, fun ws => ?words⟩
  case bytes =>
    simp only [linkBytes, extractLsb'_eight, pow_zero, Nat.div_one]
  case words =>
    induction ws with
    | nil => rfl
    | cons w ws ih => rw [List.flatMap_cons, wordsOfLink_linkBytes_append, ih]

end Sys2Proof
end

section
/-! PROOF. What a step does where no command is executed: the core waits, is reset, or stops at something the spec does
not represent (spec/20_memory.md R64, 60_exceptions.md R213, 70_reset_and_hazards.md R221, R232, R233). -/

namespace Sys2Proof.Machine

/-- Settles O59: an empty port is the idle case of a step. -/
theorem coreWaitsForTheHost : Obligations.CoreWaitsForTheHost := fun _ => step_idle

/-- Settles O2: a later reset loads registers only, and what is left on the port is what stood behind the reset. -/
theorem laterResetKeepsThePorts : Obligations.LaterResetKeepsThePorts :=
  fun _ _ hin => ⟨_, step_reset hin, rfl, rfl, rfl⟩

/-! ### Addresses that are not in `M` -/

/-- A host write of an address outside `M` stops the machine (log 9). -/
theorem step_write_outside {s : State} {a : Word} {b : Byte} {rest : List HostEvent}
    (hin : s.input = .write a b :: rest) (outside : s.mem.size ≤ a.toNat) :
    step s = .fault .hostWriteOutsideMemory := by
  rw [step_write hin]
  exact if_neg (mt Memory.inRange_one.mp (Nat.not_lt.mpr outside))

/-- UNPACK with bytes left and U_PTR outside `M` stops the machine; `State.Inv.uPtr_lt` shuts this case out of every
run (log 10). -/
theorem exec_unpack_of_outside {s : State} (left : s.uRem ≠ 0) (outside : s.mem.size ≤ s.uPtr.toNat) :
    exec .unpack s = .fault .noSuchAddress :=
  (if_neg left).trans (if_neg (mt Memory.inRange_one.mp (Nat.not_lt.mpr outside)))

/-- Settles O57. -/
theorem accessesOutsideMemoryFault : Obligations.AccessesOutsideMemoryFault :=
  ⟨fun _ _ _ _ hin outside => step_write_outside hin outside,
    fun _ left outside => exec_unpack_of_outside left outside⟩

/-! ### A packet sent only in part -/

/-- Fewer words than asked for cannot be taken, and none is taken in part. -/
theorem takeWords_eq_none_of_lt {k : Nat} {ws : List Word} (h : ws.length < k) :
    takeWords k (ws.map .word) = none := by
  induction k generalizing ws with
  | zero => exact absurd h (Nat.not_lt_zero _)
  | succ k ih =>
    cases ws with
    | nil => rfl
    | cons w ws => simp only [List.map_cons, takeWords, ih (Nat.lt_of_succ_lt_succ h)]

/-- A command word with fewer operand words behind it than its opcode takes is a packet sent in part (R75). -/
theorem nextPending_partialPacket {cw : Word} {ops : List Word} (h : ops.length < operandCount (opcField cw)) :
    nextPending ((cw :: ops).map .word) = .partialPacket := by
  simp only [List.map_cons, nextPending, takeWords_eq_none_of_lt h]

theorem step_partialPacket {s : State} (h : nextPending s.input = .partialPacket) :
    step s = .refused .partialPacket := by
  unfold step; rw [h]

/-- Settles O60: the port's table counts the operand words of R75, so those sent do not make up the packet. -/
theorem partialPacketIsRefused : Obligations.PartialPacketIsRefused := by
  intro s cw ops hshort hin
  have hmissing : ops.length < operandCount (opcField cw) :=
    hshort.trans_eq (operandCount_eq_packetOperands _).symm
  exact step_partialPacket (hin ▸ nextPending_partialPacket hmissing)

end Sys2Proof.Machine
end
